-- ==== Sys2Proof/Word.lean ====
section
/-!
DEFINITION. The machine's words: registers, memory cells and instruction words are 16 bits
(00_scope.md R9), console bytes 8 bits, and a general register is one of eight (10_state.md R20).
-/

namespace Sys2Proof

/-- A 16-bit register value, memory cell, address or instruction word (R9). -/
abbrev Word := BitVec 16

/-- A console byte (10_state.md R31). -/
abbrev Byte := BitVec 8

/-- The number of a general register, R0 to R7 (10_state.md R20). -/
abbrev Reg := Fin 8

end Sys2Proof
end

