-- ==== Sys2Proof/Config.lean ====
section
/-!
DEFINITION. What a machine fixes and the spec leaves OPEN (00_scope.md R7): the two byte strings of
the trap routines (log 4); and what a host of which nothing is known does (log 5). They have no body,
so a statement about them holds whatever they are.
The numbers the spec itself decides stand in Decode.lean and Machine/Params.lean.
-/

namespace Sys2Proof

/-- IN_PROMPT: the bytes IN writes before it reads (44_trap.md R175, D11). -/
opaque Config.inPrompt : List Byte

/-- HALT_MARKER: the bytes HALT writes before the engine stops (44_trap.md R177, D15). -/
opaque Config.haltMarker : List Byte

/-- The bytes a host of which nothing is known supplies in its `n`-th turn (20_memory.md R60, D21). -/
opaque Config.hostBytes : Nat → List Byte

/-- Whether a host of which nothing is known requests cancellation in its `n`-th turn
(60_exceptions.md R215, D19). -/
opaque Config.hostCancels : Nat → Bool

end Sys2Proof
end

