-- ==== Sys2Proof/Machine/Params.lean ====
section
/-!
DEFINITION. The numbered parameters of 00_scope.md R7. PC_START is the source's; the keyboard
addresses and the ready value are the spec's decisions D4 and D5 (log 2), kept in this one place.
-/

namespace Sys2Proof.Machine

/-- PC_START: the address of the first fetch after reset (R7, 70_reset_and_hazards.md R240). -/
def pcStart : Word := 0x3000

/-- KBSR_ADDR: the keyboard status register (20_memory.md R55). -/
def kbsrAddr : Word := 0xFE00

/-- KBDR_ADDR: the keyboard data register (20_memory.md R58). -/
def kbdrAddr : Word := 0xFE02

/-- KBSR_READY: what a KBSR read returns when a byte was available (20_memory.md R55, R56). -/
def kbsrReady : Word := 0x8000

end Sys2Proof.Machine
end

