-- ==== Sys2Proof/Machine/State.lean ====
section
/-!
DEFINITION. The state of the CORE and of the environment it carries (10_state.md), as plain data.
INVENTORY.md lists every field with its rule and its reset value.
-/

namespace Sys2Proof.Machine

/-- Memory: the listed cells, each an address and its 16-bit word, in one canonical form
(`Memory.wf`). The unit is the word, because no byte within a word has an address (20_memory.md R50;
log 7). An unlisted cell holds 0x0000, the reset content of every cell (10_state.md R33). -/
abbrev Memory := List (Nat × Word)

/-- The canonical form: addresses strictly rising and below 65536, no cell listed with the value an
unlisted cell holds. Equal memories are then equal lists. -/
abbrev Memory.wf (m : Memory) : Prop :=
  m.Pairwise (fun c d => c.1 < d.1) ∧ ∀ c ∈ m, c.1 < 65536 ∧ c.2 ≠ 0

/-- The engine state (10_state.md R30). -/
inductive EngineState where
  | running | halted
  deriving DecidableEq, Repr

/-- How a run ends (60_exceptions.md R210). -/
inductive RunOutcome where
  /-- The HALT routine ran (44_trap.md R177). -/
  | halted
  /-- An RTI or RES word was executed: the opcode as cause code, the instruction word, and the PC
  after the fetch increment (R211). -/
  | fatal (op : BitVec 4) (word pc : Word)
  /-- The host's cancellation request was taken (R215). -/
  | cancelled
  deriving DecidableEq, Repr

/-- What the CORE is in the middle of, between two model steps (log 6). -/
inductive Activity where
  /-- At an instruction boundary: the next step fetches. -/
  | boundary
  /-- GETC is blocked in ReadChar (44_trap.md R172, 60_exceptions.md R219). -/
  | getcRead
  /-- IN has written its prompt and is blocked in ReadChar (44_trap.md R175). -/
  | inRead
  /-- PUTS has not met a zero word yet; its next read is at `next` (44_trap.md R174, D14). -/
  | putsScan (next : Word)
  /-- PUTSP has not met a zero word yet; its next read is at `next` (44_trap.md R176, D14). -/
  | putspScan (next : Word)
  deriving DecidableEq, Repr

/-- What the host does at the start of one model step (60_exceptions.md R226): the bytes it supplies,
and whether it requests cancellation. -/
structure HostSlot where
  bytes : List Byte
  cancel : Bool
  deriving DecidableEq, Repr

/-- What the host does after its listed turns, for ever (log 5). -/
inductive HostLater where
  /-- The turns listed, over and over; no turn listed is a host that does nothing any more. -/
  | cycle (slots : List HostSlot)
  /-- Turns of which nothing is known, from the `turn`-th on: the free values `Config.hostBytes` and
  `Config.hostCancels`. -/
  | unknown (turn : Nat)
  deriving DecidableEq, Repr

/-- What the host will do, one turn a model step, without end (log 5). -/
structure HostSchedule where
  /-- The coming turns, the next one first. -/
  coming : List HostSlot
  /-- The turns after those. -/
  later : HostLater
  deriving DecidableEq, Repr

/-- The whole state. -/
structure State where
  /-- R0 to R7 (10_state.md R20). -/
  regs : Vector Word 8
  /-- The program counter (R23). -/
  pc : Word
  /-- The condition register: bit 2 is N, bit 1 is Z, bit 0 is P (R24). -/
  cond : BitVec 3
  /-- The memory, the KBSR and KBDR cells among it (R29, 20_memory.md R55, R58). -/
  mem : Memory
  /-- The engine state (R30). -/
  engine : EngineState
  /-- The run outcome, once one is recorded (60_exceptions.md R210). -/
  outcome : Option RunOutcome
  /-- What the CORE is in the middle of (60_exceptions.md R219; log 6). -/
  activity : Activity
  /-- Console input supplied and not yet consumed, the next byte first (R31). -/
  input : List Byte
  /-- Console input consumed so far, the first byte first (60_exceptions.md R210). -/
  consumed : List Byte
  /-- Console output written so far, the first byte first (R31). -/
  output : List Byte
  /-- The host's pending cancellation request (R31, 60_exceptions.md R215). -/
  cancelRequested : Bool
  /-- The model's own field: what the host does at each coming step (log 5). No rule of the spec
  names it, and no statement rests on its reset value. -/
  host : HostSchedule
  deriving DecidableEq, Repr

/-- Why a step answers a fault. -/
inductive Fault where
  /-- Raised by `step` alone, when a run outcome is already recorded: no step is taken (60_exceptions.md
  R210). Safe: the machine goes on nowhere here either, and the outcome is carried. -/
  | runEnded (o : RunOutcome)
  deriving DecidableEq, Repr

/-- Why the model has no meaning for an instruction. -/
inductive Refusal where
  /-- Raised by an arm of `exec` whose instruction has no meaning yet. Safe: nothing is claimed of it.
  No arm does so now. -/
  | notModelled (mnemonic : String)
  deriving DecidableEq, Repr

/-- The machine right after reset with no image loaded (10_state.md R33, 70_reset_and_hazards.md
R240). The fields R33 does not list (log 12 and, for `host`, log 5) start with nothing pending. -/
def State.reset : State where
  regs := Vector.replicate 8 0
  pc := pcStart
  cond := 0
  mem := []
  engine := .running
  outcome := none
  activity := .boundary
  input := []
  consumed := []
  output := []
  cancelRequested := false
  host := ⟨[], .cycle []⟩

end Sys2Proof.Machine
end

