-- ==== Sys2Proof/Machine/Ops.lean ====
section
/-!
DEFINITION. The named operations over registers, memory, devices and console that every meaning is
written with (00_scope.md R11 to R13), the fetch, the host's turn, the fatal exception and the
recording of a run outcome.
-/

namespace Sys2Proof.Machine

/-! ## Registers (R11) -/

/-- `x[r]` (10_state.md R20, R21). -/
def State.reg (s : State) (r : Reg) : Word := s.regs[r.val]

/-- `x[r] <- v`: no register is hard-wired (10_state.md R21). -/
def State.setReg (s : State) (r : Reg) (v : Word) : State :=
  { s with regs := s.regs.set r.val v }

/-- `pc <- t`. -/
def State.setPc (s : State) (t : Word) : State := { s with pc := t }

/-! ## Memory cells -/

/-- The word in the cell at `a`; an unlisted cell holds 0x0000 (10_state.md R33). -/
def Memory.read : Memory → Nat → Word
  | [], _ => 0
  | (b, v) :: m, a => if a = b then v else Memory.read m a

/-- The memory with the cell at `a` unlisted, so that it holds 0x0000. -/
def Memory.erase : Memory → Nat → Memory
  | [], _ => []
  | (b, v) :: m, a => if a = b then m else (b, v) :: Memory.erase m a

/-- The memory with the cell at `a` listed with `v`, in address order. -/
def Memory.insert : Memory → Nat → Word → Memory
  | [], a, v => [(a, v)]
  | (b, w) :: m, a, v =>
    if a = b then (a, v) :: m
    else if a < b then (a, v) :: (b, w) :: m
    else (b, w) :: Memory.insert m a v

/-- `mem[a] <- v`, keeping the canonical form. -/
def Memory.write (m : Memory) (a : Nat) (v : Word) : Memory :=
  if v = 0 then Memory.erase m a else Memory.insert m a v

/-- The stored content of a cell, with no side effect: what the host sees of it (60_exceptions.md
R210). A program reads through `memRead`. -/
def State.cell (s : State) (a : Word) : Word := Memory.read s.mem a.toNat

/-- `mem[a] <- v`, with no side effect (20_memory.md R54). -/
def State.setCell (s : State) (a v : Word) : State :=
  { s with mem := Memory.write s.mem a.toNat v }

/-! ## Console (20_memory.md R60 to R62) -/

/-- `zext_16(b)` (00_scope.md R10). -/
def zext16 (b : Byte) : Word := b.setWidth 16

/-- Bits 7:0 of a word. -/
def lowByte (w : Word) : Byte := w.extractLsb' 0 8

/-- Bits 15:8 of a word. -/
def highByte (w : Word) : Byte := w.extractLsb' 8 8

/-- `PollReady()`: at least one byte is available; nothing is consumed (R60, D21). -/
def State.pollReady (s : State) : Bool := !s.input.isEmpty

/-- `ReadChar()` where it does not block: the first available byte and the state without it. None
where no byte is available, and the caller stays blocked (R61). -/
def State.readChar (s : State) : Option (Byte × State) :=
  match s.input with
  | [] => none
  | b :: rest => some (b, { s with input := rest, consumed := s.consumed ++ [b] })

/-- `Out(b)` for each byte in order (R62). -/
def State.emit (s : State) (bs : List Byte) : State := { s with output := s.output ++ bs }

/-! ## The memory interface (20_memory.md R53, R54, R56) -/

/-- `Poll()`: the side effect of a KBSR read (R56). -/
def State.poll (s : State) : State :=
  match s.readChar with
  | some (b, s1) => (s1.setCell kbdrAddr (zext16 b)).setCell kbsrAddr kbsrReady
  | none => s.setCell kbsrAddr 0

/-- The state in which a read of `a` returns: polled where `a` is KBSR_ADDR (R53, R59). -/
def State.polledFor (s : State) (a : Word) : State := if a = kbsrAddr then s.poll else s

/-- `MemRead(a, 1)`: the word read, and the state after the read (R53). -/
def State.memRead (s : State) (a : Word) : Word × State :=
  ((s.polledFor a).cell a, s.polledFor a)

/-- `MemWrite(a, 1, v)`: stores, and nothing else, at device addresses too (R54). -/
def State.memWrite (s : State) (a v : Word) : State := s.setCell a v

/-! ## The fetch (40_cycle.md R120, R125, R126) -/

/-- `w <- MemRead(pc, 1)`, then `pc <- pc + 1` modulo 2^16. -/
def State.fetch (s : State) : Word × State :=
  ((s.memRead s.pc).1, (s.memRead s.pc).2.setPc (s.pc + 1))

/-! ## Ends of a run (60_exceptions.md R210) -/

/-- `raise FatalOpcode(op, word, pc)`: taking the CORE's only exception (R211). It saves the opcode,
the instruction word and the incremented PC in the run outcome, and changes nothing else: there is
no handler to enter and no return from it (R216, R217). -/
def State.raiseFatal (s : State) (op : BitVec 4) (word : Word) : State :=
  { s with outcome := some (.fatal op word s.pc) }

/-- `halt`: the engine state becomes HALTED, which is also the run's outcome (10_state.md R30). -/
def State.haltEngine (s : State) : State :=
  { s with engine := .halted, outcome := some .halted }

/-- A cancellation request is taken: CANCELLED is recorded with everything as it was, and a blocked
routine is abandoned (R215, D19). -/
def State.takeCancel (s : State) : State :=
  { s with outcome := some .cancelled, activity := .boundary }

/-- The outcome of a run that has ended; none while a step may be taken (40_cycle.md R120). -/
def State.ended (s : State) : Option RunOutcome :=
  match s.outcome with
  | some o => some o
  | none => if s.engine = .halted then some .halted else none

/-! ## The host's turn (60_exceptions.md R226) -/

/-- The host's next turn, and the schedule after it (log 5). -/
def HostSchedule.next : HostSchedule → HostSlot × HostSchedule
  | ⟨slot :: rest, later⟩ => (slot, ⟨rest, later⟩)
  | ⟨[], .cycle (slot :: rest)⟩ => (slot, ⟨rest, .cycle (slot :: rest)⟩)
  | ⟨[], .cycle []⟩ => (⟨[], false⟩, ⟨[], .cycle []⟩)
  | ⟨[], .unknown n⟩ => (⟨Config.hostBytes n, Config.hostCancels n⟩, ⟨[], .unknown (n + 1)⟩)

/-- The schedule whose next turn supplies what it did, but requests no cancellation. -/
def HostSchedule.withoutNextRequest (h : HostSchedule) : HostSchedule :=
  { h.next.2 with coming := { h.next.1 with cancel := false } :: h.next.2.coming }

/-- What the host does at the start of a step: it supplies bytes, in order, behind those not yet
consumed, and may request cancellation; a pending request stays pending (D21, D19; log 5, 8). -/
def State.hostActs (s : State) : State :=
  { s with
    input := s.input ++ s.host.next.1.bytes
    cancelRequested := s.cancelRequested || s.host.next.1.cancel
    host := s.host.next.2 }

/-- The state with `w` in the cell the next step fetches from, and the next step a fetch: the CORE
running, at an instruction boundary, no outcome recorded, no cancellation pending or about to be
requested. At KBSR_ADDR a fetch cannot read a stored word (20_memory.md R57), so there the PC is moved to
PC_START (log 15). -/
def State.withNextWord (s : State) (w : Word) : State :=
  let at_ := if s.pc = kbsrAddr then pcStart else s.pc
  let ready : State :=
    { s with
      pc := at_
      engine := .running
      outcome := none
      activity := .boundary
      cancelRequested := false
      host := s.host.withoutNextRequest }
  ready.setCell at_ w

end Sys2Proof.Machine
end

