-- ==== Sys2Proof/Machine/Operands.lean ====
section
/-!
DEFINITION. Operand forms and addressing modes (30_encoding.md R89 to R92, 43_load_store.md R157).
Every address computation is modulo 2^16 (20_memory.md R51).
-/

namespace Sys2Proof.Machine

/-- `sext_N(v)`: the field's sign bit fills the higher bits of the 16-bit result (00_scope.md R10). -/
def sext {n : Nat} (v : BitVec n) : Word := v.signExtend 16

/-- PC-relative: `pc + sext(offset)`, where `pc` is the incremented PC (R157, 10_state.md R23). -/
def State.pcRelative {n : Nat} (s : State) (off : BitVec n) : Word := s.pc + sext off

/-- Base plus offset: `x[BaseR] + sext_6(offset6)` (R157). -/
def State.basePlus (s : State) (base : Reg) (off6 : BitVec 6) : Word := s.reg base + sext off6

/-- Indirect: the PC-relative cell holds the effective address; reading it may poll (R157, R59). -/
def State.indirect (s : State) (off9 : BitVec 9) : Word × State := s.memRead (s.pcRelative off9)

end Sys2Proof.Machine
end

