-- ==== Sys2Proof/Machine/Flags.lean ====
section
/-!
DEFINITION. The condition register (10_state.md R24 to R27).
-/

namespace Sys2Proof.Machine

/-- NEGATIVE (R24). -/
def flagN : BitVec 3 := 0b100

/-- ZERO (R24). -/
def flagZ : BitVec 3 := 0b010

/-- POSITIVE (R24). -/
def flagP : BitVec 3 := 0b001

/-- The flag of a result (R26). -/
def flagOf (v : Word) : BitVec 3 :=
  if v = 0 then flagZ else if v.getLsbD 15 then flagN else flagP

/-- `setcc(v)` (R26). -/
def State.setcc (s : State) (v : Word) : State := { s with cond := flagOf v }

/-- The end of every flag-setting instruction: the destination register is written, then the flags
are computed from its value (R26, R27). -/
def State.writeResult (s : State) (dr : Reg) (v : Word) : State :=
  (s.setReg dr v).setcc ((s.setReg dr v).reg dr)

/-- The branch test: mask AND COND is not 0 (42_control.md R140). -/
def State.branchTaken (s : State) (nzp : BitVec 3) : Bool := nzp &&& s.cond != 0

end Sys2Proof.Machine
end

