-- ==== Sys2Proof/Machine/Control.lean ====
section
/-!
DEFINITION. Control transfer: BR, JMP, RET, JSR, JSRR (42_control.md). The PC already holds the
fetched word's address plus 1 (40_cycle.md R122).
-/

namespace Sys2Proof.Machine

/-- The register that JSR and JSRR save the return address in (10_state.md R22). -/
def linkReg : Reg := 7

/-- The return address, the incremented PC, is saved in R7 (R142, R143). -/
def State.saveReturn (s : State) : State := s.setReg linkReg s.pc

/-- BR (R140). -/
def execBr (nzp : BitVec 3) (off9 : BitVec 9) (s : State) : Host.Outcome State Fault Refusal :=
  .next (if s.branchTaken nzp then s.setPc (s.pcRelative off9) else s)

/-- JMP (R141). -/
def execJmp (base : Reg) (s : State) : Host.Outcome State Fault Refusal :=
  .next (s.setPc (s.reg base))

/-- RET: JMP through R7 (R141). -/
def execRet (s : State) : Host.Outcome State Fault Refusal :=
  .next (s.setPc (s.reg linkReg))

/-- JSR (R142). -/
def execJsr (off11 : BitVec 11) (s : State) : Host.Outcome State Fault Refusal :=
  .next (s.saveReturn.setPc (s.pcRelative off11))

/-- JSRR (R143): BaseR is read after the return address is in R7, so JSRR R7 continues at the next
word (90_conflicts.md C10, D17). -/
def execJsrr (base : Reg) (s : State) : Host.Outcome State Fault Refusal :=
  .next (s.saveReturn.setPc (s.saveReturn.reg base))

end Sys2Proof.Machine
end

