-- ==== Sys2Proof/Machine/LoadStore.lean ====
section
/-!
DEFINITION. Loads, stores and LEA (43_load_store.md). Every read may poll the keyboard (20_memory.md
R59), so it answers the state after it beside the word.
-/

namespace Sys2Proof.Machine

/-- A load: the word at `a` goes to `dr` and sets the flags. -/
def State.loadTo (s : State) (dr : Reg) (a : Word) : State :=
  (s.memRead a).2.writeResult dr (s.memRead a).1

/-- LD (R150). -/
def execLd (dr : Reg) (off9 : BitVec 9) (s : State) : Host.Outcome State Fault Refusal :=
  .next (s.loadTo dr (s.pcRelative off9))

/-- LDI (R151): the pointer is read first, then the value. -/
def execLdi (dr : Reg) (off9 : BitVec 9) (s : State) : Host.Outcome State Fault Refusal :=
  .next ((s.indirect off9).2.loadTo dr (s.indirect off9).1)

/-- LDR (R152): the address is computed from the old base register. -/
def execLdr (dr base : Reg) (off6 : BitVec 6) (s : State) : Host.Outcome State Fault Refusal :=
  .next (s.loadTo dr (s.basePlus base off6))

/-- LEA (R153): no memory access, and the flags come from the computed address. -/
def execLea (dr : Reg) (off9 : BitVec 9) (s : State) : Host.Outcome State Fault Refusal :=
  .next (s.writeResult dr (s.pcRelative off9))

/-- ST (R154). -/
def execSt (sr : Reg) (off9 : BitVec 9) (s : State) : Host.Outcome State Fault Refusal :=
  .next (s.memWrite (s.pcRelative off9) (s.reg sr))

/-- STI (R155): the pointer read may poll, and comes before the store. -/
def execSti (sr : Reg) (off9 : BitVec 9) (s : State) : Host.Outcome State Fault Refusal :=
  .next ((s.indirect off9).2.memWrite (s.indirect off9).1 ((s.indirect off9).2.reg sr))

/-- STR (R156). -/
def execStr (sr base : Reg) (off6 : BitVec 6) (s : State) : Host.Outcome State Fault Refusal :=
  .next (s.memWrite (s.basePlus base off6) (s.reg sr))

end Sys2Proof.Machine
end

