-- ==== Sys2Proof/Syntax.lean ====
section
/-!
DEFINITION. The instructions: one constructor per row of spec/opcode_table.json (26 rows). Operands
are the fields of 30_encoding.md R84 to R93, unextended; bits the spec calls ignored (R95) are no
operand. RTI and RES keep their low 12 bits, because the fatal record holds the whole word (R211).
-/

namespace Sys2Proof

/-- One instruction of the CORE (00_scope.md R2, 30_encoding.md R94). -/
inductive Instr where
  /-- ADD, register form (R130). -/
  | addReg (dr sr1 sr2 : Reg)
  /-- ADD, immediate form (R130). -/
  | addImm (dr sr1 : Reg) (imm5 : BitVec 5)
  /-- AND, register form (R131). -/
  | andReg (dr sr1 sr2 : Reg)
  /-- AND, immediate form (R131). -/
  | andImm (dr sr1 : Reg) (imm5 : BitVec 5)
  /-- NOT (R132). -/
  | not (dr sr : Reg)
  /-- BR with its mask n z p (R140). -/
  | br (nzp : BitVec 3) (off9 : BitVec 9)
  /-- JMP through a register other than R7 (R141). -/
  | jmp (base : Reg)
  /-- RET: JMP through R7 (R141). -/
  | ret
  /-- JSR (R142). -/
  | jsr (off11 : BitVec 11)
  /-- JSRR (R143). -/
  | jsrr (base : Reg)
  /-- LD (R150). -/
  | ld (dr : Reg) (off9 : BitVec 9)
  /-- LDI (R151). -/
  | ldi (dr : Reg) (off9 : BitVec 9)
  /-- LDR (R152). -/
  | ldr (dr base : Reg) (off6 : BitVec 6)
  /-- LEA (R153). -/
  | lea (dr : Reg) (off9 : BitVec 9)
  /-- ST (R154). -/
  | st (sr : Reg) (off9 : BitVec 9)
  /-- STI (R155). -/
  | sti (sr : Reg) (off9 : BitVec 9)
  /-- STR (R156). -/
  | str (sr base : Reg) (off6 : BitVec 6)
  /-- TRAP with a vector that names no routine (R170, R178). -/
  | trap (vect8 : BitVec 8)
  /-- GETC: TRAP x20 (R172). -/
  | getc
  /-- OUT: TRAP x21 (R173). -/
  | out
  /-- PUTS: TRAP x22 (R174). -/
  | puts
  /-- IN: TRAP x23 (R175). -/
  | inp
  /-- PUTSP: TRAP x24 (R176). -/
  | putsp
  /-- HALT: TRAP x25 (R177). -/
  | halt
  /-- RTI: reserved, fatal (R200). -/
  | rti (low : BitVec 12)
  /-- RES: reserved, fatal (R201). -/
  | res (low : BitVec 12)
  deriving DecidableEq, Repr

end Sys2Proof
end

