-- ==== Sys2Proof/WellFormed.lean ====
section
/-!
DEFINITION. Which terms of `Instr` an instruction word stands for. Registers and fields are bounded
by their types; two checks remain, so that every word has one instruction (log 13): JMP R7 is RET,
and a TRAP whose vector names a routine is that routine.
-/

namespace Sys2Proof

/-- JMP names a register other than R7: `JMP R7` is RET (42_control.md R141). -/
def jmpBaseIsNotR7 (base : Reg) : Bool := base != 7

/-- The vector lies outside 0x20 to 0x25, the six named routines (44_trap.md R171, R178). -/
def vectorNamesNoRoutine (vect8 : BitVec 8) : Bool :=
  vect8.toNat < 0x20 || 0x25 < vect8.toNat

/-- The term stands for an instruction word. -/
def Instr.wf : Instr → Bool
  | .jmp base => jmpBaseIsNotR7 base
  | .trap vect8 => vectorNamesNoRoutine vect8
  | .addReg _ _ _ => true
  | .addImm _ _ _ => true
  | .andReg _ _ _ => true
  | .andImm _ _ _ => true
  | .not _ _ => true
  | .br _ _ => true
  | .ret => true
  | .jsr _ => true
  | .jsrr _ => true
  | .ld _ _ => true
  | .ldi _ _ => true
  | .ldr _ _ _ => true
  | .lea _ _ => true
  | .st _ _ => true
  | .sti _ _ => true
  | .str _ _ _ => true
  | .getc => true
  | .out => true
  | .puts => true
  | .inp => true
  | .putsp => true
  | .halt => true
  | .rti _ => true
  | .res _ => true

end Sys2Proof
end

