-- ==== Sys2Proof/Decode.lean ====
section
/-!
DEFINITION. The decoder and the encoder, from 30_encoding.md. The opcode numbers (R82, D1) and the
field positions (R84 to R93, D2) are the spec's own decisions and stand here only (log 1). Decoding
is total: every one of the 65536 words selects exactly one instruction (R81), so no word is rejected.
-/

namespace Sys2Proof

/-- The 16 opcodes (30_encoding.md R82). -/
inductive Opcode where
  | br | add | ld | st | jsr | and | ldr | str | rti | not | ldi | sti | jmp | res | lea | trap
  deriving DecidableEq, Repr

/-- The opcode map of R82. -/
def Opcode.number : Opcode → BitVec 4
  | .br => 0x0
  | .add => 0x1
  | .ld => 0x2
  | .st => 0x3
  | .jsr => 0x4
  | .and => 0x5
  | .ldr => 0x6
  | .str => 0x7
  | .rti => 0x8
  | .not => 0x9
  | .ldi => 0xA
  | .sti => 0xB
  | .jmp => 0xC
  | .res => 0xD
  | .lea => 0xE
  | .trap => 0xF

/-- Every opcode once. -/
def Opcode.all : List Opcode :=
  [.br, .add, .ld, .st, .jsr, .and, .ldr, .str, .rti, .not, .ldi, .sti, .jmp, .res, .lea, .trap]

/-- The opcode with the given number: `Opcode.number` read backwards. All 16 numbers are taken, so
the default is never used (Laws/Decode.lean, `number_ofNumber`). -/
def Opcode.ofNumber (b : BitVec 4) : Opcode :=
  (Opcode.all.find? (fun o => o.number == b)).getD .br

/-- The six service routines of the trap dispatcher (44_trap.md R171). -/
inductive Routine where
  | getc | out | puts | inp | putsp | halt
  deriving DecidableEq, Repr

/-- The vector of each routine (44_trap.md R171). -/
def Routine.vector : Routine → BitVec 8
  | .getc => 0x20
  | .out => 0x21
  | .puts => 0x22
  | .inp => 0x23
  | .putsp => 0x24
  | .halt => 0x25

/-- Every routine once. -/
def Routine.all : List Routine := [.getc, .out, .puts, .inp, .putsp, .halt]

/-- The routine a vector names, or none (44_trap.md R171, R178). -/
def routineOf (v : BitVec 8) : Option Routine :=
  Routine.all.find? (fun r => r.vector == v)

/-! ## Field extractors (R83 to R93) -/

/-- The register a 3-bit selector names (10_state.md R20). -/
def Reg.ofBits (b : BitVec 3) : Reg := ⟨b.toNat, b.isLt⟩

/-- The 3-bit selector of a register. -/
def Reg.toBits (r : Reg) : BitVec 3 := BitVec.ofNat 3 r.val

/-- `w[15:12]` (R81). -/
def opcodeField (w : Word) : BitVec 4 := w.extractLsb' 12 4

/-- DR, or SR of a store: `w[11:9]` (R84). -/
def drField (w : Word) : Reg := Reg.ofBits (w.extractLsb' 9 3)

/-- SR1 or BaseR: `w[8:6]` (R85). -/
def baseField (w : Word) : Reg := Reg.ofBits (w.extractLsb' 6 3)

/-- SR2: `w[2:0]` (R88). -/
def sr2Field (w : Word) : Reg := Reg.ofBits (w.extractLsb' 0 3)

/-- The BR mask n z p: `w[11:9]` (R86). -/
def nzpField (w : Word) : BitVec 3 := w.extractLsb' 9 3

/-- The immediate-mode flag: `w[5]` (R87). -/
def immFlag (w : Word) : Bool := w.extractLsb' 5 1 == 1#1

/-- The JSR long-form bit: `w[11]` (R92). -/
def longFlag (w : Word) : Bool := w.extractLsb' 11 1 == 1#1

/-- imm5: `w[4:0]` (R89). -/
def imm5Field (w : Word) : BitVec 5 := w.extractLsb' 0 5

/-- offset6: `w[5:0]` (R90). -/
def off6Field (w : Word) : BitVec 6 := w.extractLsb' 0 6

/-- PCoffset9: `w[8:0]` (R91). -/
def off9Field (w : Word) : BitVec 9 := w.extractLsb' 0 9

/-- PCoffset11: `w[10:0]` (R92). -/
def off11Field (w : Word) : BitVec 11 := w.extractLsb' 0 11

/-- trapvect8: `w[7:0]` (R93). -/
def vectField (w : Word) : BitVec 8 := w.extractLsb' 0 8

/-- `w[11:0]`, which RTI and RES ignore and the fatal record keeps (R200, R201). -/
def lowField (w : Word) : BitVec 12 := w.extractLsb' 0 12

/-! ## Decoding -/

/-- TRAP: the routine the vector names, or a TRAP that names none (44_trap.md R171). -/
def decodeTrap (v : BitVec 8) : Instr :=
  match routineOf v with
  | some .getc => .getc
  | some .out => .out
  | some .puts => .puts
  | some .inp => .inp
  | some .putsp => .putsp
  | some .halt => .halt
  | none => .trap v

/-- JMP, which is RET when its register is R7 (42_control.md R141). -/
def decodeJmp (base : Reg) : Instr := if base = 7 then .ret else .jmp base

/-- The instruction a word stands for (R81, R94). -/
def decode (w : Word) : Instr :=
  match Opcode.ofNumber (opcodeField w) with
  | .br => .br (nzpField w) (off9Field w)
  | .add =>
    if immFlag w then .addImm (drField w) (baseField w) (imm5Field w)
    else .addReg (drField w) (baseField w) (sr2Field w)
  | .ld => .ld (drField w) (off9Field w)
  | .st => .st (drField w) (off9Field w)
  | .jsr => if longFlag w then .jsr (off11Field w) else .jsrr (baseField w)
  | .and =>
    if immFlag w then .andImm (drField w) (baseField w) (imm5Field w)
    else .andReg (drField w) (baseField w) (sr2Field w)
  | .ldr => .ldr (drField w) (baseField w) (off6Field w)
  | .str => .str (drField w) (baseField w) (off6Field w)
  | .rti => .rti (lowField w)
  | .not => .not (drField w) (baseField w)
  | .ldi => .ldi (drField w) (off9Field w)
  | .sti => .sti (drField w) (off9Field w)
  | .jmp => decodeJmp (baseField w)
  | .res => .res (lowField w)
  | .lea => .lea (drField w) (off9Field w)
  | .trap => decodeTrap (vectField w)

/-! ## Encoding -/

/-- A field in its place: its bit 0 at bit `lo` of the word (R94). -/
def place {n : Nat} (lo : Nat) (v : BitVec n) : Word := v.setWidth 16 <<< lo

/-- The word of an instruction, by the layout of R94: the opcode at 15:12 and each field in its
place; an ignored bit is written 0 (R95). -/
def encode : Instr → Word
  | .addReg dr sr1 sr2 =>
    place 12 Opcode.add.number ||| place 9 dr.toBits ||| place 6 sr1.toBits ||| place 0 sr2.toBits
  | .addImm dr sr1 imm5 =>
    place 12 Opcode.add.number ||| place 9 dr.toBits ||| place 6 sr1.toBits ||| place 5 1#1
      ||| place 0 imm5
  | .andReg dr sr1 sr2 =>
    place 12 Opcode.and.number ||| place 9 dr.toBits ||| place 6 sr1.toBits ||| place 0 sr2.toBits
  | .andImm dr sr1 imm5 =>
    place 12 Opcode.and.number ||| place 9 dr.toBits ||| place 6 sr1.toBits ||| place 5 1#1
      ||| place 0 imm5
  | .not dr sr => place 12 Opcode.not.number ||| place 9 dr.toBits ||| place 6 sr.toBits
  | .br nzp off9 => place 12 Opcode.br.number ||| place 9 nzp ||| place 0 off9
  | .jmp base => place 12 Opcode.jmp.number ||| place 6 base.toBits
  | .ret => place 12 Opcode.jmp.number ||| place 6 7#3
  | .jsr off11 => place 12 Opcode.jsr.number ||| place 11 1#1 ||| place 0 off11
  | .jsrr base => place 12 Opcode.jsr.number ||| place 6 base.toBits
  | .ld dr off9 => place 12 Opcode.ld.number ||| place 9 dr.toBits ||| place 0 off9
  | .ldi dr off9 => place 12 Opcode.ldi.number ||| place 9 dr.toBits ||| place 0 off9
  | .ldr dr base off6 =>
    place 12 Opcode.ldr.number ||| place 9 dr.toBits ||| place 6 base.toBits ||| place 0 off6
  | .lea dr off9 => place 12 Opcode.lea.number ||| place 9 dr.toBits ||| place 0 off9
  | .st sr off9 => place 12 Opcode.st.number ||| place 9 sr.toBits ||| place 0 off9
  | .sti sr off9 => place 12 Opcode.sti.number ||| place 9 sr.toBits ||| place 0 off9
  | .str sr base off6 =>
    place 12 Opcode.str.number ||| place 9 sr.toBits ||| place 6 base.toBits ||| place 0 off6
  | .trap vect8 => place 12 Opcode.trap.number ||| place 0 vect8
  | .getc => place 12 Opcode.trap.number ||| place 0 Routine.getc.vector
  | .out => place 12 Opcode.trap.number ||| place 0 Routine.out.vector
  | .puts => place 12 Opcode.trap.number ||| place 0 Routine.puts.vector
  | .inp => place 12 Opcode.trap.number ||| place 0 Routine.inp.vector
  | .putsp => place 12 Opcode.trap.number ||| place 0 Routine.putsp.vector
  | .halt => place 12 Opcode.trap.number ||| place 0 Routine.halt.vector
  | .rti low => place 12 Opcode.rti.number ||| place 0 low
  | .res low => place 12 Opcode.res.number ||| place 0 low

/-- The ignored bits of an instruction's words: the bits marked x in R94 (R95). RTI and RES keep
theirs as an operand, so none is listed here for them. -/
def ignoredBits : Instr → Word
  | .addReg _ _ _ => 0x0018
  | .andReg _ _ _ => 0x0018
  | .not _ _ => 0x003F
  | .jmp _ => 0x0E3F
  | .ret => 0x0E3F
  | .jsrr _ => 0x063F
  | .trap _ => 0x0F00
  | .getc => 0x0F00
  | .out => 0x0F00
  | .puts => 0x0F00
  | .inp => 0x0F00
  | .putsp => 0x0F00
  | .halt => 0x0F00
  | .addImm _ _ _ => 0
  | .andImm _ _ _ => 0
  | .br _ _ => 0
  | .jsr _ => 0
  | .ld _ _ => 0
  | .ldi _ _ => 0
  | .ldr _ _ _ => 0
  | .lea _ _ => 0
  | .st _ _ => 0
  | .sti _ _ => 0
  | .str _ _ _ => 0
  | .rti _ => 0
  | .res _ => 0

/-- What the decoder reads from an instruction whose bits are `w`, numbered as the opcode table
numbers them. One word is one instruction (R80): none where `w` does not fit in `nbits` bits, or
`nbits` in a word. -/
def decodeTableWord (nbits w : Nat) : Option Instr :=
  if nbits ≤ 16 ∧ w < 2 ^ nbits then some (decode (BitVec.ofNat 16 w)) else none

end Sys2Proof
end

