-- ==== Sys2Proof/Machine/Reserved.lean ====
section
/-!
DEFINITION. The reserved opcodes RTI and RES (45_reserved.md): each raises FatalOpcode with the
opcode, the whole instruction word and the incremented PC.
-/

namespace Sys2Proof.Machine

/-- RTI (R200). -/
def execRti (low : BitVec 12) (s : State) : Host.Outcome State Fault Refusal :=
  .next (s.raiseFatal Opcode.rti.number (Opcode.rti.number ++ low))

/-- RES (R201). -/
def execRes (low : BitVec 12) (s : State) : Host.Outcome State Fault Refusal :=
  .next (s.raiseFatal Opcode.res.number (Opcode.res.number ++ low))

end Sys2Proof.Machine
end

