-- ==== Sys2Proof/Machine/Trap.lean ====
section
/-!
DEFINITION. TRAP and the trap dispatcher (44_trap.md). A routine is built in: it saves no PC, writes
no flag and consults no vector table (R170, R216, D9). A routine that cannot finish within one model
step leaves what it still has to do in `activity`, and the next step resumes it (log 6).
-/

namespace Sys2Proof.Machine

/-! ## GETC and IN -/

/-- The read of GETC (R172): with a byte available R0 receives it and the routine is over; with none
the routine is blocked. -/
def State.getcRead (s : State) : State :=
  match s.readChar with
  | some (b, s1) => { s1.setReg 0 (zext16 b) with activity := .boundary }
  | none => { s with activity := .getcRead }

/-- The read of IN (R175), after its prompt: the byte is echoed, then stored in R0. -/
def State.inRead (s : State) : State :=
  match s.readChar with
  | some (b, s1) => { (s1.emit [b]).setReg 0 (zext16 b) with activity := .boundary }
  | none => { s with activity := .inRead }

/-- IN (R175): the prompt is written before the read blocks. -/
def State.inRoutine (s : State) : State := (s.emit Config.inPrompt).inRead

/-! ## OUT, PUTS and PUTSP -/

/-- OUT (R173): R0's low byte. -/
def State.outRoutine (s : State) : State := s.emit [lowByte (s.reg 0)]

/-- What PUTS writes for a non-zero word: its low byte (R174, D12). -/
def putsBytes (c : Word) : List Byte := [lowByte c]

/-- What PUTSP writes for a non-zero word: the low byte, then the high byte unless it is zero (R176,
D13). -/
def putspBytes (c : Word) : List Byte :=
  if highByte c = 0 then [lowByte c] else [lowByte c, highByte c]

/-- One iteration of the scan loop of PUTS or PUTSP, at address `a` (R174, R176): none where the word
read is the zero word, which ends the loop, and the state after the read. -/
def State.scanWord (s : State) (bytes : Word → List Byte) (a : Word) : Bool × State :=
  if (s.memRead a).1 = 0 then (false, (s.memRead a).2)
  else (true, (s.memRead a).2.emit (bytes (s.memRead a).1))

/-- At most `n` iterations of the loop from address `a`, which wraps modulo 2^16 (D14). A scan that
has met no zero word by then stays unfinished, with `more` of its next address as the activity. -/
def State.scan (bytes : Word → List Byte) (more : Word → Activity) : Nat → Word → State → State
  | 0, a, s => { s with activity := more a }
  | n + 1, a, s =>
    match s.scanWord bytes a with
    | (false, s1) => { s1 with activity := .boundary }
    | (true, s1) => State.scan bytes more n (a + 1) s1

/-- The words a scan may read within one model step: every address once, so that it polls at most
once between two turns of the host (log 6). -/
def scanBatch : Nat := 65536

/-- PUTS from address `a` on (R174). -/
def State.putsFrom (s : State) (a : Word) : State :=
  State.scan putsBytes .putsScan scanBatch a s

/-- PUTSP from address `a` on (R176). -/
def State.putspFrom (s : State) (a : Word) : State :=
  State.scan putspBytes .putspScan scanBatch a s

/-! ## HALT and the dispatcher -/

/-- HALT (R177): the marker, then HALTED. -/
def State.haltRoutine (s : State) : State := (s.emit Config.haltMarker).haltEngine

/-- `Dispatch(v)` (R171): exactly one routine, or nothing for a vector that names none (R178). -/
def State.dispatch (s : State) (v : BitVec 8) : State :=
  match routineOf v with
  | some .getc => s.getcRead
  | some .out => s.outRoutine
  | some .puts => s.putsFrom (s.reg 0)
  | some .inp => s.inRoutine
  | some .putsp => s.putspFrom (s.reg 0)
  | some .halt => s.haltRoutine
  | none => s

/-- A model step that begins inside a routine (log 6): a blocked GETC or IN takes a pending
cancellation request while no byte is available (60_exceptions.md R215, R219; log 9), and otherwise
tries its read again; an unfinished scan goes on. At a boundary there is nothing to resume. -/
def State.resume (s : State) : State :=
  match s.activity with
  | .boundary => s
  | .getcRead => if s.cancelRequested && !s.pollReady then s.takeCancel else s.getcRead
  | .inRead => if s.cancelRequested && !s.pollReady then s.takeCancel else s.inRead
  | .putsScan a => s.putsFrom a
  | .putspScan a => s.putspFrom a

/-! ## Meanings -/

/-- TRAP (R170). -/
def execTrap (vect8 : BitVec 8) (s : State) : Host.Outcome State Fault Refusal :=
  .next (s.dispatch vect8)

/-- GETC (R172). -/
def execGetc (s : State) : Host.Outcome State Fault Refusal := .next s.getcRead

/-- OUT (R173). -/
def execOut (s : State) : Host.Outcome State Fault Refusal := .next s.outRoutine

/-- PUTS (R174). -/
def execPuts (s : State) : Host.Outcome State Fault Refusal := .next (s.putsFrom (s.reg 0))

/-- IN (R175). -/
def execIn (s : State) : Host.Outcome State Fault Refusal := .next s.inRoutine

/-- PUTSP (R176). -/
def execPutsp (s : State) : Host.Outcome State Fault Refusal := .next (s.putspFrom (s.reg 0))

/-- HALT (R177). -/
def execHalt (s : State) : Host.Outcome State Fault Refusal := .next s.haltRoutine

end Sys2Proof.Machine
end

