-- ==== Sys2Proof/Machine/Step.lean ====
section
/-!
DEFINITION. One step of the CORE (40_cycle.md R120), as one model step: the host's turn, then a
cancellation or one whole instruction; or, inside a routine that has not finished, its next part (log
6). No step is taken once a run outcome is recorded (60_exceptions.md R210; log 11).
-/

namespace Sys2Proof.Machine

/-- `Step()` of R120 at an instruction boundary, after the host's turn. -/
def stepAtBoundary (s : State) : Host.Outcome State Fault Refusal :=
  if s.cancelRequested then .next s.takeCancel
  else exec (decode s.fetch.1) s.fetch.2

/-- One model step. -/
def step (s : State) : Host.Outcome State Fault Refusal :=
  match s.ended with
  | some o => .fault (.runEnded o)
  | none =>
    match s.hostActs.activity with
    | .boundary => stepAtBoundary s.hostActs
    | _ => .next s.hostActs.resume

/-- The state with an instruction's word where `step` fetches its next instruction (log 15). -/
def State.withFetchWord (s : State) (nbits w : Nat) : State :=
  s.withNextWord (BitVec.ofNat 16 (w % 2 ^ nbits))

end Sys2Proof.Machine
end

