-- ==== Sys2Proof/Machine/Loader.lean ====
section
/-!
DEFINITION. The reset sequence with the program loader (70_reset_and_hazards.md R240, R242, R243):
how a program comes to run.
-/

namespace Sys2Proof.Machine

/-- Why the engine never starts (R243). -/
inductive LoadFailure where
  /-- The stream cannot be opened or read. -/
  | unreadable
  /-- The stream has fewer than 2 bytes, so no origin word (D16). -/
  | noOrigin
  deriving DecidableEq, Repr

/-- The big-endian words of a byte stream; a trailing odd byte is ignored (R242, D16). -/
def wordsOfBytes : List Byte → List Word
  | hi :: lo :: rest => (hi ++ lo) :: wordsOfBytes rest
  | [_] => []
  | [] => []

/-- The words stored at `a`, `a + 1`, ... in order, stopping at the memory's upper bound: the word
that would go to 0x10000 and every later word are dropped (R242, D24). -/
def loadWords : Nat → List Word → Memory → Memory
  | _, [], m => m
  | a, w :: ws, m => if a < 65536 then loadWords (a + 1) ws (Memory.write m a w) else m

/-- The state after the reset sequence of R240 with the given image stream, none being a stream that
cannot be opened or read; or the load failure, and no run. The origin does not set the PC (R244). -/
def boot (stream : Option (List Byte)) : Except LoadFailure State :=
  match stream with
  | none => .error .unreadable
  | some bytes =>
    match wordsOfBytes bytes with
    | [] => .error .noOrigin
    | origin :: words =>
      .ok { State.reset with mem := loadWords origin.toNat words State.reset.mem }

end Sys2Proof.Machine
end

