-- ==== Sys2Proof/Safety.lean ====
section
/-!
DEFINITION. What claims call a sound state and a safe run.
-/

namespace Sys2Proof.Machine

/-- A sound state: the relations between fields that the reset state meets and every step keeps. -/
structure State.Inv (s : State) : Prop where
  /-- The memory is in canonical form. -/
  memWf : Memory.wf s.mem
  /-- COND is one of its legal values: no flag, N, Z or P (10_state.md R24). -/
  condLegal : s.cond ∈ [0, 0b100, 0b010, 0b001]
  /-- The engine is HALTED exactly when the run's outcome is HALTED (R30, 60_exceptions.md R210). -/
  haltAgrees : s.engine = .halted ↔ s.outcome = some .halted
  /-- A run that has ended is inside no routine. -/
  endedAtBoundary : s.outcome ≠ none → s.activity = .boundary
  /-- A fatal record holds opcode 0x8 or 0xD, a word with that opcode, and the PC as it stands
  (60_exceptions.md R211). -/
  fatalRecord : ∀ op word pc, s.outcome = some (.fatal op word pc) →
    (op = 0x8 ∨ op = 0xD) ∧ word.extractLsb' 12 4 = op ∧ pc = s.pc

/-- `t` is `n` model steps after `s`. -/
def StepsTo : Nat → State → State → Prop
  | 0, s, t => s = t
  | n + 1, s, t => ∃ u, step s = .next u ∧ StepsTo n u t

/-- A safe run of `n` steps: none of them answers a fault or a refusal. -/
def SafeRun (n : Nat) (s : State) : Prop := ∃ t, StepsTo n s t

end Sys2Proof.Machine
end

