-- ==== Sys2Proof/Certificates/Slice0/Obligations.lean ====
section
/-!
DEFINITION. The statements for the provers. Each formalises rules of spec/ about instructions, the
machine or the model's own conventions; a clause that rests on a decision of the spec (D<n>) or on an
entry of notes/assumptions (log <n>) says so. The predicates they share stand first.
-/

namespace Sys2Proof.Claims

open Sys2Proof.Machine

/-- Everything but registers, PC, COND and memory is unchanged. -/
structure EnvSame (s t : State) : Prop where
  engine : t.engine = s.engine
  outcome : t.outcome = s.outcome
  activity : t.activity = s.activity
  input : t.input = s.input
  consumed : t.consumed = s.consumed
  output : t.output = s.output
  cancelRequested : t.cancelRequested = s.cancelRequested
  host : t.host = s.host

/-- Every cell of memory reads as before. -/
def CellsSame (s t : State) : Prop := ∀ a, t.cell a = s.cell a

/-- Every register reads as before. -/
def RegsSame (s t : State) : Prop := ∀ r, t.reg r = s.reg r

/-- Every register but `d` reads as before. -/
def RegsSameBut (d : Reg) (s t : State) : Prop := ∀ r, r ≠ d → t.reg r = s.reg r

/-- The flag of a value by its signed reading (10_state.md R25): N, Z or P. -/
def signFlag (v : Word) : BitVec 3 :=
  if v.toInt < 0 then flagN else if v.toInt = 0 then flagZ else flagP

/-- `pc + offset`, computed exactly and then taken modulo 2^16. -/
def target {n : Nat} (base : Word) (off : BitVec n) : Word :=
  BitVec.ofInt 16 ((base.toNat : Int) + off.toInt)

/-- What a flag-setting instruction does with its result: the destination register and COND change,
nothing else does. -/
def ResultWritten (d : Reg) (v : Word) (s t : State) : Prop :=
  t.reg d = v ∧ t.cond = signFlag v ∧ RegsSameBut d s t ∧ t.pc = s.pc ∧ CellsSame s t ∧ EnvSame s t

/-- Only the PC changes, to `a`. -/
def JumpedTo (a : Word) (s t : State) : Prop :=
  t.pc = a ∧ RegsSame s t ∧ t.cond = s.cond ∧ CellsSame s t ∧ EnvSame s t

/-- R7 holds the PC before, the PC is `a`, nothing else changes. -/
def LinkedTo (a : Word) (s t : State) : Prop :=
  t.reg 7 = s.pc ∧ t.pc = a ∧ RegsSameBut 7 s t ∧ t.cond = s.cond ∧ CellsSame s t ∧ EnvSame s t

/-- Only the cell at `a` changes, to `v`. -/
def Stored (a v : Word) (s t : State) : Prop :=
  t.cell a = v ∧ (∀ b, b ≠ a → t.cell b = s.cell b) ∧ RegsSame s t ∧ t.pc = s.pc ∧
    t.cond = s.cond ∧ EnvSame s t

/-- Everything but memory and the console input is unchanged. -/
structure PollFrame (s u : State) : Prop where
  regs : RegsSame s u
  pc : u.pc = s.pc
  cond : u.cond = s.cond
  engine : u.engine = s.engine
  outcome : u.outcome = s.outcome
  activity : u.activity = s.activity
  output : u.output = s.output
  cancelRequested : u.cancelRequested = s.cancelRequested
  host : u.host = s.host

/-- A memory read of `a` gives `v` and leaves `u` (20_memory.md R52, R53, R56; the values at KBSR and
KBDR are decisions D5 and D6): an ordinary address changes nothing; KBSR with no byte available
reads 0; KBSR with a byte available consumes it into KBDR and reads 0x8000. -/
def ReadOf (s : State) (a v : Word) (u : State) : Prop :=
  (a ≠ kbsrAddr ∧ v = s.cell a ∧ u = s) ∨
  (a = kbsrAddr ∧ s.input = [] ∧ v = 0 ∧ u.cell kbsrAddr = 0 ∧
    (∀ b, b ≠ kbsrAddr → u.cell b = s.cell b) ∧
    u.input = [] ∧ u.consumed = s.consumed ∧ PollFrame s u) ∨
  (a = kbsrAddr ∧ ∃ c rest, s.input = c :: rest ∧ v = 0x8000 ∧ u.cell kbsrAddr = 0x8000 ∧
    (u.cell kbdrAddr).toNat = c.toNat ∧
    (∀ b, b ≠ kbsrAddr → b ≠ kbdrAddr → u.cell b = s.cell b) ∧
    u.input = rest ∧ u.consumed = s.consumed ++ [c] ∧ PollFrame s u)

/-- The destination register of a flag-setting instruction (10_state.md R27). -/
def destOf : Instr → Option Reg
  | .addReg d _ _ => some d
  | .addImm d _ _ => some d
  | .andReg d _ _ => some d
  | .andImm d _ _ => some d
  | .not d _ => some d
  | .ld d _ => some d
  | .ldi d _ => some d
  | .ldr d _ _ => some d
  | .lea d _ => some d
  | .br _ _ => none
  | .jmp _ => none
  | .ret => none
  | .jsr _ => none
  | .jsrr _ => none
  | .st _ _ => none
  | .sti _ _ => none
  | .str _ _ _ => none
  | .trap _ => none
  | .getc => none
  | .out => none
  | .puts => none
  | .inp => none
  | .putsp => none
  | .halt => none
  | .rti _ => none
  | .res _ => none

/-- The instructions that write the PC beyond the increment (10_state.md R34). -/
def writesPc : Instr → Bool
  | .br _ _ => true
  | .jmp _ => true
  | .ret => true
  | .jsr _ => true
  | .jsrr _ => true
  | .addReg _ _ _ => false
  | .addImm _ _ _ => false
  | .andReg _ _ _ => false
  | .andImm _ _ _ => false
  | .not _ _ => false
  | .ld _ _ => false
  | .ldi _ _ => false
  | .ldr _ _ _ => false
  | .lea _ _ => false
  | .st _ _ => false
  | .sti _ _ => false
  | .str _ _ _ => false
  | .trap _ => false
  | .getc => false
  | .out => false
  | .puts => false
  | .inp => false
  | .putsp => false
  | .halt => false
  | .rti _ => false
  | .res _ => false

/-- TRAP and the six routines. -/
def isTrap : Instr → Bool
  | .trap _ => true
  | .getc => true
  | .out => true
  | .puts => true
  | .inp => true
  | .putsp => true
  | .halt => true
  | .addReg _ _ _ => false
  | .addImm _ _ _ => false
  | .andReg _ _ _ => false
  | .andImm _ _ _ => false
  | .not _ _ => false
  | .br _ _ => false
  | .jmp _ => false
  | .ret => false
  | .jsr _ => false
  | .jsrr _ => false
  | .ld _ _ => false
  | .ldi _ _ => false
  | .ldr _ _ _ => false
  | .lea _ _ => false
  | .st _ _ => false
  | .sti _ _ => false
  | .str _ _ _ => false
  | .rti _ => false
  | .res _ => false

/-- HALT, RTI and RES: the instructions that end a run. -/
def endsRun (i : Instr) : Prop := i = .halt ∨ (∃ low, i = .rti low) ∨ ∃ low, i = .res low

/-- The console bytes of PUTS for a non-zero word (44_trap.md R174, D12). -/
def putsOf (c : Word) : List Byte := [BitVec.ofNat 8 (c.toNat % 256)]

/-- The console bytes of PUTSP for a non-zero word (44_trap.md R176, D13). -/
def putspOf (c : Word) : List Byte :=
  if c.toNat / 256 = 0 then [BitVec.ofNat 8 (c.toNat % 256)]
  else [BitVec.ofNat 8 (c.toNat % 256), BitVec.ofNat 8 (c.toNat / 256)]

/-- The words of `ws`, none of them zero, stand in the cells from `a` on, a zero word follows them,
the addresses wrap, and none of the cells read is KBSR. -/
def StringAt (s : State) (a : Word) (ws : List Word) : Prop :=
  ws.length < 65536 ∧
  (∀ k (h : k < ws.length), s.cell (a + BitVec.ofNat 16 k) = ws[k] ∧ ws[k] ≠ 0) ∧
  s.cell (a + BitVec.ofNat 16 ws.length) = 0 ∧
  ∀ k, k ≤ ws.length → a + BitVec.ofNat 16 k ≠ kbsrAddr

/-- `n` iterations of the scan loop of 44_trap.md R174 and R176, from address `a` and state `s`: each
reads a non-zero word and writes its bytes. They arrive at address `b` and state `t`. -/
def ScanRun (bytes : Word → List Byte) : Nat → Word → State → Word → State → Prop
  | 0, a, s, b, t => b = a ∧ t = s
  | n + 1, a, s, b, t => ∃ v u, ReadOf s a v u ∧ Memory.wf u.mem ∧ v ≠ 0 ∧
      ScanRun bytes n (a + 1) { u with output := u.output ++ bytes v } b t

/-- The host's schedule after `n` more turns. -/
def scheduleAfter : Nat → HostSchedule → HostSchedule
  | 0, h => h
  | n + 1, h => scheduleAfter n h.next.2

/-- The host supplies at least one byte in each of its turns, for ever, and never the byte 0x00. -/
def KeepsSupplying (h : HostSchedule) : Prop :=
  ∀ n, (scheduleAfter n h).next.1.bytes ≠ [] ∧ 0x00 ∉ (scheduleAfter n h).next.1.bytes

/-- No zero word for a scan to end at, now or later: every cell but KBSR holds another word, and no
byte that a poll may put into KBDR is 0x00. -/
structure NoTerminator (s : State) : Prop where
  wf : Memory.wf s.mem
  cells : ∀ a, a ≠ kbsrAddr → s.cell a ≠ 0
  input : 0x00 ∉ s.input
  host : KeepsSupplying s.host

/-- A step may be taken (40_cycle.md R120). -/
def MayStep (s : State) : Prop := s.outcome = none ∧ s.engine = .running

/-- The CORE is blocked in GETC or in IN. -/
def Blocked (s : State) : Prop := s.activity = .getcRead ∨ s.activity = .inRead

/-- Two states with canonical memories that agree in everything but what the KBSR cell stores. -/
structure SameButKbsr (s t : State) : Prop where
  cells : ∀ a, a ≠ kbsrAddr → t.cell a = s.cell a
  leftWf : Memory.wf s.mem
  rightWf : Memory.wf t.mem
  regs : t.regs = s.regs
  pc : t.pc = s.pc
  cond : t.cond = s.cond
  env : EnvSame s t

end Sys2Proof.Claims

open Sys2Proof Sys2Proof.Machine Sys2Proof.Claims

/-! ## Encoding (30_encoding.md) -/

/-- 30_encoding.md sections 2 and 3: no bit of an operand is lost or moved between the encoder and the
decoder, for every well-formed instruction and every operand value. It rests on the opcode map and
positions of D1 and D2 (log 1), used in both directions. -/
def Obligations.DecodeUndoesEncode : Prop :=
  ∀ i : Instr, i.wf = true → decode (encode i) = i

/-- 30_encoding.md R81, R94, R95: every word is exactly one well-formed instruction, whose encoding is
the word with its ignored bits cleared. The opcode map and the positions are D1 and D2 (log 1), and
that the bits are ignored is D8 (log 14); of RTI and RES no bit is cleared, because their low 12 bits
reach the fatal record (log 14). -/
def Obligations.EveryWordIsItsInstructionLessIgnoredBits : Prop :=
  ∀ w : Word, (decode w).wf = true ∧ encode (decode w) = w &&& ~~~ ignoredBits (decode w)

/-- 30_encoding.md R94, R95: words that differ in ignored bits only are the same instruction. The
positions of the ignored bits are D2 (log 1), and that they are ignored is D8 (log 14). RTI and RES are
excepted: their low 12 bits, which R94 marks `x`, are kept for the fatal record (log 14), so there the
statement speaks of equal words only. -/
def Obligations.IgnoredBitsChangeNothing : Prop :=
  ∀ w v : Word,
    w &&& ~~~ ignoredBits (decode w) = v &&& ~~~ ignoredBits (decode w) → decode v = decode w

/-- 30_encoding.md R94: example words of 41_operate.md to 45_reserved.md and 95_test_vectors.md decode
to the instructions the spec writes beside them (D1, D2, log 1). -/
def Obligations.SpecExampleWordsDecode : Prop :=
  decode 0x1283 = .addReg 1 2 3 ∧ decode 0x5A6F = .andImm 5 1 15 ∧ decode 0x96FF = .not 3 3 ∧
  decode 0x0402 = .br 0b010 2 ∧ decode 0xC1C0 = .ret ∧ decode 0x4802 = .jsr 2 ∧
  decode 0x4080 = .jsrr 2 ∧ decode 0x2402 = .ld 2 2 ∧ decode 0xA201 = .ldi 1 1 ∧
  decode 0x64FF = .ldr 2 3 (-1) ∧ decode 0xE005 = .lea 0 5 ∧ decode 0x3205 = .st 1 5 ∧
  decode 0xB800 = .sti 4 0 ∧ decode 0x7D5F = .str 6 5 31 ∧ decode 0xF025 = .halt ∧
  decode 0x8000 = .rti 0 ∧ decode 0xDFFF = .res 0xFFF

/-- 00_scope.md R10: sign extension of the field widths 5, 6, 9 and 11, bit by bit and as a number,
and zero extension of a byte. -/
def Obligations.SignExtensionFillsTheHigherBits : Prop :=
  (∀ (n : Nat) (v : BitVec n), n ∈ [5, 6, 9, 11] →
    (∀ k, k < 16 → (sext v).getLsbD k = if k < n then v.getLsbD k else v.getLsbD (n - 1)) ∧
    (sext v).toNat = if v.getLsbD (n - 1) then v.toNat + (0x10000 - 2 ^ n) else v.toNat) ∧
  ∀ b : Byte, ∀ k, k < 16 → (zext16 b).getLsbD k = if k < 8 then b.getLsbD k else false

/-! ## Operate instructions (41_operate.md) -/

/-- 41_operate.md R133: ADD, AND and NOT in all their forms complete in every state, write the 16-bit
result (the sum modulo 2^16, the same for unsigned and signed readings; the bitwise AND; the
complement) and its flag, and change nothing else. -/
def Obligations.OperateInstructionsWriteTheirResult : Prop :=
  (∀ (s : State) (d a b : Reg), ∃ t, exec (.addReg d a b) s = .next t ∧
    ResultWritten d (BitVec.ofNat 16 (((s.reg a).toNat + (s.reg b).toNat) % 65536)) s t ∧
    t.reg d = BitVec.ofInt 16 ((s.reg a).toInt + (s.reg b).toInt)) ∧
  (∀ (s : State) (d a : Reg) (imm : BitVec 5), ∃ t, exec (.addImm d a imm) s = .next t ∧
    ResultWritten d (BitVec.ofInt 16 (((s.reg a).toNat : Int) + imm.toInt)) s t ∧
    t.reg d = BitVec.ofInt 16 ((s.reg a).toInt + imm.toInt)) ∧
  (∀ (s : State) (d a b : Reg), ∃ t v, exec (.andReg d a b) s = .next t ∧ ResultWritten d v s t ∧
    ∀ k, k < 16 → v.getLsbD k = ((s.reg a).getLsbD k && (s.reg b).getLsbD k)) ∧
  (∀ (s : State) (d a : Reg) (imm : BitVec 5), ∃ t v, exec (.andImm d a imm) s = .next t ∧
    ResultWritten d v s t ∧
    ∀ k, k < 16 →
      v.getLsbD k = ((s.reg a).getLsbD k && if k < 5 then imm.getLsbD k else imm.getLsbD 4)) ∧
  (∀ (s : State) (d a : Reg), ∃ t v, exec (.not d a) s = .next t ∧ ResultWritten d v s t ∧
    ∀ k, k < 16 → v.getLsbD k = !(s.reg a).getLsbD k)

/-! ## Flags (10_state.md) -/

/-- 10_state.md R25: after every flag-setting instruction exactly one flag is set, by the signed
reading of the destination register's final value; at reset COND is 0. The table of R26, by the
value's bits, gives the same flag. -/
def Obligations.FlagSettersSetTheFlagOfTheirDestination : Prop :=
  State.reset.cond = 0 ∧
  ∀ (i : Instr) (d : Reg) (s : State), destOf i = some d → ∃ t, exec i s = .next t ∧
    t.cond = signFlag (t.reg d) ∧
    t.cond = (if t.reg d = 0 then flagZ else if (t.reg d).getLsbD 15 then flagN else flagP) ∧
    (t.cond = flagN ∨ t.cond = flagZ ∨ t.cond = flagP) ∧
    flagN ≠ flagZ ∧ flagN ≠ flagP ∧ flagZ ≠ flagP

/-- 10_state.md R27 (D9 for TRAP, log 16): BR is the only reader of COND. Every other instruction does
the same whatever COND holds; the flag setters leave the same COND, the others leave it alone. -/
def Obligations.OnlyBranchesReadCond : Prop :=
  ∀ (i : Instr) (s : State) (c : BitVec 3), (∀ nzp off, i ≠ .br nzp off) →
    ∃ t, exec i s = .next t ∧
      (destOf i = none → t.cond = s.cond ∧
        exec i { s with cond := c } = .next { t with cond := c }) ∧
      (destOf i ≠ none → exec i { s with cond := c } = .next t)

/-! ## Control transfer (42_control.md) -/

/-- 42_control.md, BR: taken exactly when a mask bit meets its flag (n with N, z with Z, p with P;
encoding of COND is D3), to the incremented PC plus the signed offset modulo 2^16; otherwise nothing
changes. -/
def Obligations.BranchTakenWhenMaskMeetsFlag : Prop :=
  ∀ (s : State) (nzp : BitVec 3) (off : BitVec 9), ∃ t, exec (.br nzp off) s = .next t ∧
    JumpedTo
      (if (nzp.getLsbD 2 && s.cond.getLsbD 2) || (nzp.getLsbD 1 && s.cond.getLsbD 1) ||
          (nzp.getLsbD 0 && s.cond.getLsbD 0)
        then target s.pc off else s.pc) s t

/-- 42_control.md, JMP and RET: the PC becomes the base register's value, R7's for RET; no register
is written. -/
def Obligations.JumpsGoToTheirRegister : Prop :=
  (∀ (s : State) (base : Reg), ∃ t, exec (.jmp base) s = .next t ∧ JumpedTo (s.reg base) s t) ∧
  ∀ s : State, ∃ t, exec .ret s = .next t ∧ JumpedTo (s.reg 7) s t

/-- 42_control.md, JSR: R7 receives the incremented PC, and the PC the PC-relative target. -/
def Obligations.JsrLinksAndJumps : Prop :=
  ∀ (s : State) (off : BitVec 11), ∃ t, exec (.jsr off) s = .next t ∧
    LinkedTo (target s.pc off) s t

/-- 42_control.md, JSRR: R7 receives the incremented PC, and the PC the base register's value, read
after the link: through R7 that is the return address itself (D17, log 16). -/
def Obligations.JsrrReadsItsBaseAfterLinking : Prop :=
  ∀ (s : State) (base : Reg), ∃ t, exec (.jsrr base) s = .next t ∧
    LinkedTo (if base = 7 then s.pc else s.reg base) s t

/-! ## Loads, stores and addresses (43_load_store.md, 20_memory.md) -/

/-- 20_memory.md R51: every computed address is base plus signed offset modulo 2^16, and no address
faults: every load, store and address computation answers a next state, whatever its address. -/
def Obligations.ComputedAddressesWrap : Prop :=
  (∀ (s : State) (n : Nat) (off : BitVec n), n ∈ [9, 11] →
    s.pcRelative off = target s.pc off) ∧
  (∀ (s : State) (base : Reg) (off : BitVec 6), s.basePlus base off = target (s.reg base) off) ∧
  ∀ (s : State) (r base : Reg) (off9 : BitVec 9) (off6 : BitVec 6),
    ∀ i ∈ [Instr.ld r off9, .ldi r off9, .ldr r base off6, .lea r off9, .st r off9, .sti r off9,
      .str r base off6], ∃ t, exec i s = .next t

/-- 43_load_store.md, LD and LDR: the word read at the computed address goes to the destination
register and sets the flags; a read of KBSR polls (D5, D6), any other read changes nothing. -/
def Obligations.LoadsWriteTheWordRead : Prop :=
  ∀ s : State, Memory.wf s.mem →
    (∀ (d : Reg) (off : BitVec 9), ∃ v u t, ReadOf s (target s.pc off) v u ∧
      exec (.ld d off) s = .next t ∧ ResultWritten d v u t) ∧
    ∀ (d base : Reg) (off : BitVec 6), ∃ v u t, ReadOf s (target (s.reg base) off) v u ∧
      exec (.ldr d base off) s = .next t ∧ ResultWritten d v u t

/-- 43_load_store.md, LDI: two reads in order, the pointer and then the value at it; each polls where
its address is KBSR (D7). -/
def Obligations.LdiReadsThePointerThenTheValue : Prop :=
  ∀ (s : State) (d : Reg) (off : BitVec 9), Memory.wf s.mem →
    ∃ p u v w t, ReadOf s (target s.pc off) p u ∧ ReadOf u p v w ∧
      exec (.ldi d off) s = .next t ∧ ResultWritten d v w t

/-- 43_load_store.md, LEA: the computed address itself is the result, flags and all; no memory access,
so no poll at any address. -/
def Obligations.LeaWritesItsAddress : Prop :=
  ∀ (s : State) (d : Reg) (off : BitVec 9), ∃ t, exec (.lea d off) s = .next t ∧
    ResultWritten d (target s.pc off) s t

/-- 43_load_store.md, ST and STR: the source register goes to the cell at the computed address, and
nothing else changes, at the device addresses too. -/
def Obligations.StoresWriteOneCell : Prop :=
  ∀ s : State, Memory.wf s.mem →
    (∀ (r : Reg) (off : BitVec 9), ∃ t, exec (.st r off) s = .next t ∧
      Stored (target s.pc off) (s.reg r) s t) ∧
    ∀ (r base : Reg) (off : BitVec 6), ∃ t, exec (.str r base off) s = .next t ∧
      Stored (target (s.reg base) off) (s.reg r) s t

/-- 43_load_store.md, STI: the pointer is read, polling where its address is KBSR (D7), and then the
source register goes to the cell at the pointer. -/
def Obligations.StiStoresThroughItsPointer : Prop :=
  ∀ (s : State) (r : Reg) (off : BitVec 9), Memory.wf s.mem →
    ∃ p u t, ReadOf s (target s.pc off) p u ∧ exec (.sti r off) s = .next t ∧
      Stored p (s.reg r) u t

/-- 20_memory.md R52: an ordinary address, KBDR among them, reads as last written, or as reset or
loaded, and reading changes nothing; the only address with a read side effect is KBSR. -/
def Obligations.OrdinaryAddressesReadAsLastWritten : Prop :=
  (∀ (s : State) (a : Word), a ≠ kbsrAddr → s.memRead a = (s.cell a, s)) ∧
  (∀ s : State, s.memRead kbdrAddr = (s.cell kbdrAddr, s)) ∧
  (∀ (s : State) (a v : Word), Memory.wf s.mem → a ≠ kbsrAddr →
    ((s.memWrite a v).memRead a).1 = v) ∧
  (∀ (s : State) (a b v : Word), a ≠ kbsrAddr → a ≠ b →
    ((s.memWrite b v).memRead a).1 = (s.memRead a).1) ∧
  (∀ a : Word, a ≠ kbsrAddr → (State.reset.memRead a).1 = 0) ∧
  ∀ (hi lo x y : Byte) (rest : List Byte) (s : State) (a : Word) (k : Nat),
    boot (some (hi :: lo :: rest)) = .ok s → a ≠ kbsrAddr →
    a.toNat = hi.toNat * 256 + lo.toNat + k → rest[2 * k]? = some x → rest[2 * k + 1]? = some y →
    (s.memRead a).1.toNat = x.toNat * 256 + y.toNat

/-- 20_memory.md R54: a write stores the value and does nothing else, at KBSR and KBDR too. -/
def Obligations.WritesOnlyStore : Prop :=
  ∀ (s : State) (a v : Word), Memory.wf s.mem → Stored a v s (s.memWrite a v)

/-- 20_memory.md, the KBSR read (R55, R56 as decided by D5 and D6, log 2): it returns 0x8000 and
consumes one byte into KBDR where a byte is available, and returns 0 otherwise. -/
def Obligations.KbsrReadsPollTheKeyboard : Prop :=
  ∀ s : State, Memory.wf s.mem →
    ReadOf s kbsrAddr (s.memRead kbsrAddr).1 (s.memRead kbsrAddr).2

/-- 20_memory.md, instruction-fetch coherence (R72, which the spec marks as derived): a store by ST,
STR or STI to the next instruction's address is seen by the very next fetch, self-modifying code
without a fence. The address KBSR is the exception, where a fetch reads the poll's answer (D7). -/
def Obligations.StoreIsSeenByTheNextFetch : Prop :=
  ∀ (s : State) (r : Reg), Memory.wf s.mem → s.pc ≠ kbsrAddr →
    (∀ off : BitVec 9, target s.pc off = s.pc →
      ∃ t, exec (.st r off) s = .next t ∧ t.fetch.1 = s.reg r) ∧
    (∀ (base : Reg) (off : BitVec 6), target (s.reg base) off = s.pc →
      ∃ t, exec (.str r base off) s = .next t ∧ t.fetch.1 = s.reg r) ∧
    ∀ off : BitVec 9, (s.memRead (target s.pc off)).1 = s.pc →
      ∃ t, exec (.sti r off) s = .next t ∧ t.fetch.1 = s.reg r

/-- 20_memory.md, stores to KBSR (R57, which the spec marks as derived; log 17): what a program stores
in the KBSR cell is never observed. Two sound memories that differ in it only take steps that agree:
both end the same way, or the next states differ in it only. -/
def Obligations.StoredKbsrIsNeverObserved : Prop :=
  ∀ s t : State, SameButKbsr s t →
    (∀ s', step s = .next s' → ∃ t', step t = .next t' ∧ SameButKbsr s' t') ∧
    ∀ f, step s = .fault f → step t = .fault f

/-- The model's canonical form of memory (log 7): two canonical memories in which every cell reads the
same are the same list. -/
def Obligations.CanonicalMemoriesWithEqualCellsAreEqual : Prop :=
  ∀ s t : State, Memory.wf s.mem → Memory.wf t.mem → (∀ a, t.cell a = s.cell a) → t.mem = s.mem

/-- 10_state.md, the register file (R20, R21): a register reads the last value written to it, and a
write to one register changes no other; none is hard-wired. -/
def Obligations.RegistersHoldTheLastValueWritten : Prop :=
  ∀ (s : State) (r q : Reg) (v : Word), (s.setReg r v).reg q = if q = r then v else s.reg q

/-! ## TRAP (44_trap.md) -/

/-- 44_trap.md R171: TRAP runs exactly one routine, chosen by its vector; any other vector runs none.
No word decodes to TRAP with one of the six vectors, because such a word is its routine's own
constructor; that those terms mean the same is the model's choice (log 13). -/
def Obligations.TrapRunsTheRoutineOfItsVector : Prop :=
  ∀ s : State,
    exec (.trap 0x20) s = exec .getc s ∧ exec (.trap 0x21) s = exec .out s ∧
    exec (.trap 0x22) s = exec .puts s ∧ exec (.trap 0x23) s = exec .inp s ∧
    exec (.trap 0x24) s = exec .putsp s ∧ exec (.trap 0x25) s = exec .halt s ∧
    ∀ v : BitVec 8, v.toNat < 0x20 ∨ 0x25 < v.toNat → exec (.trap v) s = .next s

/-- 44_trap.md R178: any vector outside 0x20 to 0x25 is a no-op: no register, flag, cell or output
changes, and the PC stays at the incremented value. -/
def Obligations.OtherTrapVectorsAreNoOps : Prop :=
  ∀ (s : State) (v : BitVec 8), v.toNat < 0x20 ∨ 0x25 < v.toNat → exec (.trap v) s = .next s

/-- 44_trap.md, GETC, with a byte available: R0 receives it zero-extended (D10), it is consumed, and
nothing is written; no flag and no other register changes (D9, log 16). -/
def Obligations.GetcStoresTheNextByte : Prop :=
  ∀ (s : State) (b : Byte) (rest : List Byte), s.input = b :: rest →
    ∃ t, exec .getc s = .next t ∧ (t.reg 0).toNat = b.toNat ∧ RegsSameBut 0 s t ∧
      t.input = rest ∧ t.consumed = s.consumed ++ [b] ∧ t.output = s.output ∧ t.pc = s.pc ∧
      t.cond = s.cond ∧ CellsSame s t ∧ t.engine = s.engine ∧ t.outcome = s.outcome ∧
      t.activity = .boundary ∧ t.cancelRequested = s.cancelRequested ∧ t.host = s.host

/-- 44_trap.md, IN, with a byte available: the prompt is written, the byte is consumed, echoed once
and stored zero-extended in R0 (D10, D11); no flag changes (D9). It holds whatever IN_PROMPT is (log 4). -/
def Obligations.InPromptsEchoesAndStores : Prop :=
  ∀ (s : State) (b : Byte) (rest : List Byte), s.input = b :: rest →
    ∃ t, exec .inp s = .next t ∧ (t.reg 0).toNat = b.toNat ∧ RegsSameBut 0 s t ∧
      t.input = rest ∧ t.consumed = s.consumed ++ [b] ∧
      t.output = s.output ++ Config.inPrompt ++ [b] ∧ t.pc = s.pc ∧
      t.cond = s.cond ∧ CellsSame s t ∧ t.engine = s.engine ∧ t.outcome = s.outcome ∧
      t.activity = .boundary ∧ t.cancelRequested = s.cancelRequested ∧ t.host = s.host

/-- 44_trap.md, OUT: R0's low byte is written, and nothing else changes (D9). -/
def Obligations.OutWritesTheLowByte : Prop :=
  ∀ s : State, exec .out s =
    .next { s with output := s.output ++ [BitVec.ofNat 8 ((s.reg 0).toNat % 256)] }

/-- 44_trap.md, PUTS and PUTSP of a string that stands in ordinary cells and ends with a zero word:
its bytes are written in order, the scan wraps at 0xFFFF, nothing after the zero word matters, and
nothing but the output changes (D9, D12, D13, D14). The scan is one model step (log 6). -/
def Obligations.PutsAndPutspWriteTheString : Prop :=
  ∀ (s : State) (ws : List Word), StringAt s (s.reg 0) ws →
    exec .puts s = .next { s with output := s.output ++ ws.flatMap putsOf, activity := .boundary } ∧
    exec .putsp s =
      .next { s with output := s.output ++ ws.flatMap putspOf, activity := .boundary }

/-- 44_trap.md R174, R176 with 20_memory.md R59 (D7): a scan that reads KBSR polls. With no byte
available it reads the terminating zero word; with one it reads 0x8000, of which PUTS writes the low
byte and PUTSP both (D12, D13), and goes on. -/
def Obligations.ScanOfKbsrPolls : Prop :=
  ∀ s : State, Memory.wf s.mem → s.reg 0 = kbsrAddr →
    (s.input = [] →
      exec .puts s = .next { s.setCell kbsrAddr 0 with activity := .boundary } ∧
      exec .putsp s = .next { s.setCell kbsrAddr 0 with activity := .boundary }) ∧
    ∀ b rest, s.input = b :: rest → s.cell (kbsrAddr + 1) = 0 → ∃ t u,
      exec .puts s = .next t ∧ exec .putsp s = .next u ∧
      t.output = s.output ++ [0x00] ∧ u.output = s.output ++ [0x00, 0x80] ∧
      (t.cell kbdrAddr).toNat = b.toNat ∧ (u.cell kbdrAddr).toNat = b.toNat ∧
      t.input = rest ∧ u.input = rest ∧ t.activity = .boundary ∧ u.activity = .boundary

/-- 44_trap.md, PUTS and PUTSP over any cells, KBSR among them (D7, D12, D13, D14): after any number
below 65536 of iterations, a zero word read ends the routine; after 65536 of them without one the
routine is left unfinished at its next address, which is the model's batch (log 6). -/
def Obligations.ScansFollowTheLoopOfTheirRule : Prop :=
  ∀ (s t : State) (b : Word), Memory.wf s.mem →
    (∀ n u, n < 65536 → ReadOf t b 0 u → Memory.wf u.mem →
      (ScanRun putsOf n (s.reg 0) s b t → exec .puts s = .next { u with activity := .boundary }) ∧
      (ScanRun putspOf n (s.reg 0) s b t →
        exec .putsp s = .next { u with activity := .boundary })) ∧
    (ScanRun putsOf 65536 (s.reg 0) s b t →
      exec .puts s = .next { t with activity := .putsScan b }) ∧
    (ScanRun putspOf 65536 (s.reg 0) s b t →
      exec .putsp s = .next { t with activity := .putspScan b })

/-- 44_trap.md D14, as the model takes it (log 6): a scan that has met no zero word goes on in the next
step from its next address, in the state the host's turn leaves, KBSR among the cells it reads (D7). A
zero word after fewer than 65536 further iterations ends the routine; after 65536 without one it is
left unfinished again. It holds whatever the host does, and a cancellation request does not stop
it. -/
def Obligations.UnfinishedScansGoOn : Prop :=
  ∀ (s t : State) (a b : Word), MayStep s → Memory.wf s.mem →
    (∀ n u, n < 65536 → ReadOf t b 0 u → Memory.wf u.mem →
      (s.activity = .putsScan a → ScanRun putsOf n a s.hostActs b t →
        step s = .next { u with activity := .boundary }) ∧
      (s.activity = .putspScan a → ScanRun putspOf n a s.hostActs b t →
        step s = .next { u with activity := .boundary })) ∧
    (s.activity = .putsScan a → ScanRun putsOf 65536 a s.hostActs b t →
      step s = .next { t with activity := .putsScan b }) ∧
    (s.activity = .putspScan a → ScanRun putspOf 65536 a s.hostActs b t →
      step s = .next { t with activity := .putspScan b })

/-- 44_trap.md, HALT: the marker is written and the engine becomes HALTED, which is the run's outcome;
no register or flag changes and the PC stays after the HALT word. It holds whatever HALT_MARKER is
(D15, log 4). -/
def Obligations.HaltWritesItsMarkerAndStops : Prop :=
  ∀ s : State, exec .halt s = .next { s with
    output := s.output ++ Config.haltMarker, engine := .halted, outcome := some .halted }

/-- 44_trap.md R179: of the trap routines only GETC and IN write a register, and that is R0; none
writes memory, but for the KBSR and KBDR cells where PUTS or PUTSP polls; only GETC and IN block. -/
def Obligations.TrapRoutinesTouchOnlyWhatTheySay : Prop :=
  ∀ (i : Instr) (s : State), i.wf = true → isTrap i = true → ∃ t, exec i s = .next t ∧
    RegsSameBut 0 s t ∧ (i ≠ .getc → i ≠ .inp → t.reg 0 = s.reg 0) ∧
    (∀ a, a ≠ kbsrAddr → a ≠ kbdrAddr → t.cell a = s.cell a) ∧
    (i ≠ .puts → i ≠ .putsp → CellsSame s t) ∧
    (i ≠ .getc → i ≠ .inp → Blocked t → Blocked s) ∧
    (i = .getc ∨ i = .inp → (Blocked t ↔ s.input = []))

/-- 20_memory.md R62: `Out` of bytes appends them; output is only ever appended, so that bytes appear
in the order they are written, and of the instructions only OUT, PUTS, IN, PUTSP and HALT write any. -/
def Obligations.OutputIsAppendedByTrapRoutinesOnly : Prop :=
  (∀ (s : State) (b : Byte), s.emit [b] = { s with output := s.output ++ [b] }) ∧
  (∀ (i : Instr) (s : State), i.wf = true → ∃ t bs, exec i s = .next t ∧
    t.output = s.output ++ bs ∧
    (i ≠ .out → i ≠ .puts → i ≠ .inp → i ≠ .putsp → i ≠ .halt → bs = [])) ∧
  ∀ s t : State, step s = .next t → ∃ bs, t.output = s.output ++ bs

/-! ## Blocking, cancellation and the host (60_exceptions.md) -/

/-- 60_exceptions.md, blocking (R219; cancellation in a blocked read is D19): GETC and IN are the only
blocking points, they block exactly where no byte is available, and a blocked step is lifted by a byte
from the host or by cancellation, by nothing else. The form of a blocked state and the host's turn
before it are the model's (log 6, 8). -/
def Obligations.OnlyInputOrCancellationLiftsABlockedRead : Prop :=
  (∀ s : State, MayStep s → Blocked s → ∃ t, step s = .next t ∧
    (Blocked t ↔ s.hostActs.input = [] ∧ s.hostActs.cancelRequested = false) ∧
    (Blocked t → t = s.hostActs)) ∧
  (∀ (i : Instr) (s : State), i = .getc ∨ i = .inp → ∃ t, exec i s = .next t ∧
    (Blocked t ↔ s.input = [])) ∧
  ∀ (i : Instr) (s : State), i.wf = true → i ≠ .getc → i ≠ .inp → ∃ t, exec i s = .next t ∧
    (Blocked t → Blocked s)

/-- 44_trap.md and 60_exceptions.md, GETC and IN with no byte available (log 6): the routine is left
blocked, IN's prompt already written; once a byte is there it is read as if at once; a cancellation
request taken while blocked abandons the routine with everything else as it was (D19, log 9). -/
def Obligations.BlockedReadsResumeOrAreAbandoned : Prop :=
  (∀ s : State, s.input = [] →
    exec .getc s = .next { s with activity := .getcRead } ∧
    exec .inp s =
      .next { s with output := s.output ++ Config.inPrompt, activity := .inRead }) ∧
  ∀ s : State, MayStep s → Blocked s →
    (s.hostActs.input = [] → s.hostActs.cancelRequested = true → step s =
      .next { s.hostActs with outcome := some .cancelled, activity := .boundary }) ∧
    ∀ b rest, s.hostActs.input = b :: rest → ∃ t, step s = .next t ∧
      (t.reg 0).toNat = b.toNat ∧ RegsSameBut 0 s t ∧ t.input = rest ∧
      t.consumed = s.consumed ++ [b] ∧
      t.output = s.output ++ (if s.activity = .inRead then [b] else []) ∧
      t.activity = .boundary ∧ t.pc = s.pc ∧ t.cond = s.cond ∧ CellsSame s t ∧ MayStep t

/-- 60_exceptions.md, cancellation (R215, R214, D19; log 8, 10): a request pending at an instruction
boundary is taken before the fetch, whatever the next word is, and leaves all state as it was. -/
def Obligations.CancellationIsTakenBeforeTheFetch : Prop :=
  ∀ s : State, MayStep s → s.activity = .boundary → s.hostActs.cancelRequested = true →
    step s = .next { s.hostActs with outcome := some .cancelled }

/-- The host's turn (60_exceptions.md R226, D19, D21; log 5, 8): the bytes it supplies come behind
those not yet consumed, in order, and a request stays pending; it touches nothing else. The turns are
the listed ones, then a cycle of turns for ever, or turns of which nothing is known; a host with none
left does nothing. -/
def Obligations.HostTurnQueuesBytesAndRequests : Prop :=
  (∀ s : State, s.host = ⟨[], .cycle []⟩ → s.hostActs = s) ∧
  (∀ (s : State) (slot : HostSlot) (rest : List HostSlot) (later : HostLater),
    s.host = ⟨slot :: rest, later⟩ ∨
        s.host = ⟨[], .cycle (slot :: rest)⟩ ∧ later = .cycle (slot :: rest) →
      s.hostActs = { s with
        input := s.input ++ slot.bytes
        cancelRequested := s.cancelRequested || slot.cancel
        host := ⟨rest, later⟩ }) ∧
  ∀ (s : State) (n : Nat), s.host = ⟨[], .unknown n⟩ → ∃ bytes cancel, s.hostActs = { s with
    input := s.input ++ bytes
    cancelRequested := s.cancelRequested || cancel
    host := ⟨[], .unknown (n + 1)⟩ }

/-! ## Faults and the ends of a run (45_reserved.md, 60_exceptions.md, 10_state.md) -/

/-- 45_reserved.md, RTI and RES: FatalOpcode is recorded with the opcode 0x8 or 0xD, the whole word
with its ignored bits, and the incremented PC (the record's form is D18, log 11); nothing else
changes. -/
def Obligations.FatalOpcodesRecordTheirWord : Prop :=
  ∀ (s : State) (low : BitVec 12),
    exec (.rti low) s = .next { s with
      outcome := some (.fatal 0x8 (BitVec.ofNat 16 (0x8000 + low.toNat)) s.pc) } ∧
    exec (.res low) s = .next { s with
      outcome := some (.fatal 0xD (BitVec.ofNat 16 (0xD000 + low.toNat)) s.pc) }

/-- 45_reserved.md R202: the fatal stop is an explicit signal, a recorded run outcome, after which the
CORE takes no further step. -/
def Obligations.FatalStopIsAnOutcomeAndTheLastStep : Prop :=
  ∀ (s : State) (i : Instr), ((∃ low, i = .rti low) ∨ ∃ low, i = .res low) →
    ∃ t op word pc, exec i s = .next t ∧ t.outcome = some (.fatal op word pc) ∧
      ∀ u, step t ≠ .next u

/-- 40_cycle.md R123: after HALT, and after RTI or RES, no further step is taken; every other handler
returns to the loop, with no outcome recorded and the engine RUNNING. -/
def Obligations.OnlyHaltAndFatalHandlersEndTheLoop : Prop :=
  ∀ (i : Instr) (s : State), i.wf = true → MayStep s → ∃ t, exec i s = .next t ∧
    (endsRun i → ∀ u, step t ≠ .next u) ∧ (¬ endsRun i → MayStep t) ∧
    (i = .halt → t.engine = .halted) ∧ (i ≠ .halt → t.engine = .running)

/-- 10_state.md R30: the engine is RUNNING after reset, becomes HALTED only in a step that runs the
HALT trap, takes no step from HALTED, and a fatal opcode or a cancellation is a run outcome that
leaves the engine RUNNING. -/
def Obligations.EngineHaltsOnlyByTheHaltTrap : Prop :=
  State.reset.engine = .running ∧
  (∀ s : State, s.engine = .halted → ∀ t, step s ≠ .next t) ∧
  ∀ s t : State, step s = .next t →
    (t.engine = .halted ↔ s.activity = .boundary ∧ s.hostActs.cancelRequested = false ∧
      decode s.hostActs.fetch.1 = .halt) ∧
    (∀ op word pc, t.outcome = some (.fatal op word pc) → t.engine = .running) ∧
    (t.outcome = some .cancelled → t.engine = .running)

/-- 60_exceptions.md R210, R212, with the model's form of "no step is taken" (log 11): a step answers a
fault exactly when the run has already ended, with the recorded outcome, and never a refusal. -/
def Obligations.StepFaultsExactlyWhenTheRunHasEnded : Prop :=
  ∀ s : State,
    (∀ o, s.outcome = some o → step s = .fault (.runEnded o)) ∧
    (s.outcome = none → s.engine = .halted → step s = .fault (.runEnded .halted)) ∧
    (MayStep s → ∃ t, step s = .next t) ∧
    ∀ r, step s ≠ .refused r

/-- 60_exceptions.md R212, with log 11 for RTI and RES: no instruction faults or is refused, in any
state and with any operands. -/
def Obligations.EveryInstructionAnswersANextState : Prop :=
  ∀ (i : Instr) (s : State), ∃ t, exec i s = .next t

/-! ## The cycle (40_cycle.md) -/

/-- 40_cycle.md R120: at an instruction boundary with no cancellation pending, a step is the host's
turn, the fetch of the word at the PC, the increment of the PC, and the instruction that word decodes
to. The host's turn is the model's own (log 5, 8). -/
def Obligations.StepRunsTheDecodedInstruction : Prop :=
  ∀ (s : State) (i : Instr), MayStep s → s.activity = .boundary →
    s.hostActs.cancelRequested = false →
    (decode (s.hostActs.memRead s.pc).1 = i →
      step s = exec i ((s.hostActs.memRead s.pc).2.setPc (s.pc + 1))) ∧
    (s.pc ≠ kbsrAddr → decode (s.cell s.pc) = i →
      step s = exec i { s.hostActs with pc := s.pc + 1 })

/-- 40_cycle.md R122: after the host's turn (log 5, 8), a step at an instruction boundary runs the
handler of the fetched word in a state whose PC is the fetched word's address plus 1 modulo 2^16, and
which is otherwise the state the fetch leaves; a handler that does not write the PC leaves it there,
and the next step fetches from it. Which handlers do not write it is the list of 10_state.md R34, which
the spec marks as derived. -/
def Obligations.HandlersRunAfterTheIncrement : Prop :=
  (∀ s : State, MayStep s → s.activity = .boundary → s.hostActs.cancelRequested = false →
    ∃ u, step s = exec (decode (s.hostActs.memRead s.pc).1) u ∧
      u.pc = BitVec.ofNat 16 ((s.pc.toNat + 1) % 65536) ∧
      u = { (s.hostActs.memRead s.pc).2 with pc := u.pc }) ∧
  (∀ s : State, s.fetch.2.pc = BitVec.ofNat 16 ((s.pc.toNat + 1) % 65536)) ∧
  (∀ (i : Instr) (s : State), writesPc i = false → ∃ t, exec i s = .next t ∧ t.pc = s.pc) ∧
  ∀ s : State, s.fetch.1 = (s.memRead s.pc).1

/-- 20_memory.md R59, 40_cycle.md R125 (D7, log 2): a fetch from KBSR polls, and runs RTI where a byte
was available and the never-taken BR where none was. -/
def Obligations.FetchFromKbsrRunsThePollsAnswer : Prop :=
  ∀ s : State, Memory.wf s.mem → MayStep s → s.activity = .boundary → s.pc = kbsrAddr →
    s.hostActs.cancelRequested = false →
    (s.hostActs.input = [] → ∃ t, step s = .next t ∧ t.pc = kbsrAddr + 1 ∧ MayStep t ∧
      RegsSame s t ∧ t.cond = s.cond ∧ ∀ a, a ≠ kbsrAddr → t.cell a = s.cell a) ∧
    ∀ b rest, s.hostActs.input = b :: rest → ∃ t, step s = .next t ∧
      t.outcome = some (.fatal 0x8 0x8000 (kbsrAddr + 1)) ∧ (t.cell kbdrAddr).toNat = b.toNat ∧
      t.input = rest ∧ RegsSame s t

/-! ## Invariants -/

/-- The sound states are closed under steps: canonical memory (log 7), legal COND (10_state.md R24, D3),
HALTED agreeing with the outcome (R30), an ended run inside no routine (log 6), a true fatal record
(R211, D18). -/
def Obligations.StepsKeepStatesSound : Prop :=
  ∀ s t : State, s.Inv → step s = .next t → t.Inv

/-- The reset state is sound, with the values of R33 and those of log 12. -/
def Obligations.ResetStateIsSound : Prop := State.reset.Inv

/-! ## Reset and boot (70_reset_and_hazards.md) -/

/-- 70_reset_and_hazards.md, the reset sequence (R240; what R33 does not list is log 12): every cell is
0 before the load and those below the origin after it, every register is 0, COND is 0, the PC is
0x3000 whatever the origin, the engine is RUNNING, the output is empty and no cancellation is
pending; the first step fetches from 0x3000, whatever input is already there and whatever the host
does (log 5 and 12), unless its first turn requests a cancellation; and where the stream cannot be
read there is no run. -/
def Obligations.ResetSequenceLeavesTheStartState : Prop :=
  (∀ a, State.reset.cell a = 0) ∧
  (∀ (hi lo : Byte) (rest : List Byte), ∃ s, boot (some (hi :: lo :: rest)) = .ok s ∧
    (∀ r, s.reg r = 0) ∧ s.cond = 0 ∧ s.pc = 0x3000 ∧ s.engine = .running ∧ s.output = [] ∧
    s.cancelRequested = false ∧ s.outcome = none ∧
    (∀ a : Word, a.toNat < hi.toNat * 256 + lo.toNat → s.cell a = 0) ∧
    ∀ (bytes : List Byte) (schedule : HostSchedule), schedule.next.1.cancel = false →
      step { s with input := bytes, host := schedule } =
        exec (decode (s.cell 0x3000))
          (({ s with input := bytes, host := schedule } : State).hostActs.setPc 0x3001)) ∧
  ∀ s, boot none ≠ .ok s

/-- 70_reset_and_hazards.md, the image (R242, as decided by D16 and D24, log 16): big-endian words in
order from the origin, a trailing odd byte ignored, nothing beyond 0xFFFF and no wrap, every cell not
covered at 0, and a canonical memory. -/
def Obligations.ImageWordsAreLoadedFromTheOrigin : Prop :=
  ∀ (hi lo : Byte) (rest : List Byte) (s : State), boot (some (hi :: lo :: rest)) = .ok s →
    Memory.wf s.mem ∧ ∀ a : Word,
      (∀ k x y, a.toNat = hi.toNat * 256 + lo.toNat + k → rest[2 * k]? = some x →
        rest[2 * k + 1]? = some y → (s.cell a).toNat = x.toNat * 256 + y.toNat) ∧
      (a.toNat < hi.toNat * 256 + lo.toNat ∨
        hi.toNat * 256 + lo.toNat + rest.length / 2 ≤ a.toNat → s.cell a = 0)

/-- 70_reset_and_hazards.md, load failure (R243, D16): a stream that cannot be read, or has fewer than
2 bytes, starts no run; an origin alone is a valid image. -/
def Obligations.LoadFailsOnlyWithoutAnOrigin : Prop :=
  boot none = .error .unreadable ∧
  ∀ bytes : List Byte,
    (bytes.length < 2 → boot (some bytes) = .error .noOrigin) ∧
    (2 ≤ bytes.length → ∃ s, boot (some bytes) = .ok s) ∧
    (bytes.length = 2 → boot (some bytes) = .ok State.reset)

/-! ## Scans without end (44_trap.md) -/

/-- 44_trap.md R174 and R176 with D14, the hang: where no cell but KBSR holds a zero word, and the host
keeps a byte available for every poll of KBSR, PUTS and PUTSP never end. Whether the scan starts at the
trap word or is already unfinished, any number of steps can be taken, and after them it is unfinished
still, a word's output or more further for each word read. The host's schedule and the form of an
unfinished scan are the model's (log 5, 6). -/
def Obligations.ScanWithoutTerminatorNeverEnds : Prop :=
  ∀ (s : State), MayStep s → NoTerminator s →
    (∀ a n, s.activity = .putsScan a → ∃ t, StepsTo n s t ∧ MayStep t ∧ t.activity = .putsScan a ∧
      t.output.length = s.output.length + 65536 * n) ∧
    (∀ a n, s.activity = .putspScan a → ∃ t, StepsTo n s t ∧ MayStep t ∧
      t.activity = .putspScan a ∧ s.output.length + 65536 * n ≤ t.output.length) ∧
    (s.activity = .boundary → s.hostActs.cancelRequested = false → s.pc ≠ kbsrAddr →
      (decode (s.cell s.pc) = .puts → ∀ n, ∃ t, StepsTo (n + 1) s t ∧ MayStep t ∧
        t.activity = .putsScan (s.reg 0) ∧
        t.output.length = s.output.length + 65536 * (n + 1)) ∧
      (decode (s.cell s.pc) = .putsp → ∀ n, ∃ t, StepsTo (n + 1) s t ∧ MayStep t ∧
        t.activity = .putspScan (s.reg 0) ∧
        s.output.length + 65536 * (n + 1) ≤ t.output.length))
end

