-- ==== Sys2Proof/Laws/Decode.lean ====
section
/-!
SUPPORT. The tables of the decoder read backwards, register selectors, and what a field extractor reads
from a word put together of placed fields.
-/

namespace Sys2Proof

@[simp] theorem ofNumber_number (o : Opcode) : Opcode.ofNumber o.number = o := by
  cases o <;> decide

@[simp] theorem number_ofNumber (b : BitVec 4) : (Opcode.ofNumber b).number = b := by
  revert b; decide

@[simp] theorem ofBits_toBits (r : Reg) : Reg.ofBits (Reg.toBits r) = r := by
  revert r; decide

@[simp] theorem toBits_ofBits (b : BitVec 3) : Reg.toBits (Reg.ofBits b) = b := by
  revert b; decide

@[simp] theorem routineOf_vector (r : Routine) : routineOf r.vector = some r := by
  cases r <;> decide

theorem vector_of_routineOf {v : BitVec 8} {r : Routine} (h : routineOf v = some r) :
    v = r.vector := by
  have := List.find?_some h
  exact (by simpa using this : r.vector = v).symm

/-- A vector names no routine exactly outside 0x20 to 0x25. -/
theorem routineOf_eq_none (v : BitVec 8) :
    routineOf v = none ↔ vectorNamesNoRoutine v = true := by
  revert v; decide

theorem decodeTrap_of_none {v : BitVec 8} (h : routineOf v = none) : decodeTrap v = .trap v := by
  simp [decodeTrap, h]

/-- Every word decodes to a well-formed instruction. -/
theorem decode_wf (w : Word) : (decode w).wf = true := by
  unfold decode
  split <;> (try split) <;> try rfl
  · unfold decodeJmp
    split
    · rfl
    · rename_i h
      simpa [Instr.wf, jmpBaseIsNotR7] using h
  · unfold decodeTrap
    split <;> try rfl
    rename_i h
    exact (routineOf_eq_none _).1 h

/-- The decoder reads an instruction from every word of a table row that fits. -/
theorem decodeTableWord_of_lt {w : Nat} (h : w < 2 ^ 16) :
    decodeTableWord 16 w = some (decode (BitVec.ofNat 16 w)) := by
  exact if_pos ⟨Nat.le_refl 16, h⟩

/-! ### One-bit fields -/

theorem bit_eq_one (w : Word) (k : Nat) : (w.extractLsb' k 1 == 1#1) = w.getLsbD k := by
  rw [Bool.eq_iff_iff, beq_iff_eq]
  constructor
  · intro h
    simpa using congrArg (fun v => v.getLsbD 0) h
  · intro h
    apply BitVec.eq_of_getLsbD_eq
    intro j hj
    obtain rfl : j = 0 := by omega
    simpa using h

theorem immFlag_eq (w : Word) : immFlag w = w.getLsbD 5 := bit_eq_one w 5

theorem longFlag_eq (w : Word) : longFlag w = w.getLsbD 11 := bit_eq_one w 11

/-! ### Placed fields -/

theorem getLsbD_place {n : Nat} (lo : Nat) (v : BitVec n) (k : Nat) :
    (place lo v).getLsbD k = (decide (k < 16) && decide (lo ≤ k) && v.getLsbD (k - lo)) := by
  simp only [place, BitVec.getLsbD_shiftLeft, BitVec.getLsbD_setWidth]
  by_cases h : k < 16
  · by_cases h' : lo ≤ k
    · have h2 : ¬ k < lo := Nat.not_lt.2 h'
      have h3 : k - lo < 16 := by omega
      simp [h, h', h2, h3]
    · simp [h, h', Nat.not_le.1 h']
  · simp [h]

theorem getElem_place {n : Nat} (lo : Nat) (v : BitVec n) (k : Nat) (h : k < 16) :
    (place lo v)[k] = (decide (lo ≤ k) && v.getLsbD (k - lo)) := by
  rw [← BitVec.getLsbD_eq_getElem, getLsbD_place]
  simp [h]

@[simp] theorem field_or (v w : Word) (lo n : Nat) :
    (v ||| w).extractLsb' lo n = v.extractLsb' lo n ||| w.extractLsb' lo n := by
  apply BitVec.eq_of_getLsbD_eq
  intro k hk
  simp [hk]

/-- The field itself is read back from its place. -/
theorem field_place_same {n : Nat} (lo : Nat) (v : BitVec n) (h : lo + n ≤ 16) :
    (place lo v).extractLsb' lo n = v := by
  apply BitVec.eq_of_getLsbD_eq
  intro k hk
  have h16 : lo + k < 16 := by omega
  rw [BitVec.getLsbD_extractLsb', getLsbD_place]
  simp [hk, h16]

/-- A field placed above the bits read leaves them 0. -/
theorem field_place_above {n : Nat} (lo q m : Nat) (v : BitVec n) (h : q + m ≤ lo) :
    (place lo v).extractLsb' q m = 0 := by
  apply BitVec.eq_of_getLsbD_eq
  intro k hk
  have h' : ¬ lo ≤ q + k := by omega
  rw [BitVec.getLsbD_extractLsb', getLsbD_place]
  simp [h']

/-- A field placed below the bits read leaves them 0. -/
theorem field_place_below {n : Nat} (lo q m : Nat) (v : BitVec n) (h : lo + n ≤ q) :
    (place lo v).extractLsb' q m = 0 := by
  apply BitVec.eq_of_getLsbD_eq
  intro k hk
  have h' : v.getLsbD (q + k - lo) = false := BitVec.getLsbD_of_ge _ _ (by omega)
  rw [BitVec.getLsbD_extractLsb', getLsbD_place]
  simp [h']

end Sys2Proof
end

