-- ==== Sys2Proof/Laws/State.lean ====
section
/-!
SUPPORT. What each record update of `State` leaves in each field: one lemma a field and update, so that
no proof unfolds an update.
-/

namespace Sys2Proof.Machine

variable (s : State)

/-! ### setReg -/

@[simp] theorem setReg_regs (r : Reg) (v : Word) : (s.setReg r v).regs = s.regs.set r.val v := rfl
@[simp] theorem setReg_pc (r : Reg) (v : Word) : (s.setReg r v).pc = s.pc := rfl
@[simp] theorem setReg_cond (r : Reg) (v : Word) : (s.setReg r v).cond = s.cond := rfl
@[simp] theorem setReg_mem (r : Reg) (v : Word) : (s.setReg r v).mem = s.mem := rfl
@[simp] theorem setReg_engine (r : Reg) (v : Word) : (s.setReg r v).engine = s.engine := rfl
@[simp] theorem setReg_outcome (r : Reg) (v : Word) : (s.setReg r v).outcome = s.outcome := rfl
@[simp] theorem setReg_activity (r : Reg) (v : Word) : (s.setReg r v).activity = s.activity := rfl
@[simp] theorem setReg_input (r : Reg) (v : Word) : (s.setReg r v).input = s.input := rfl
@[simp] theorem setReg_consumed (r : Reg) (v : Word) : (s.setReg r v).consumed = s.consumed := rfl
@[simp] theorem setReg_output (r : Reg) (v : Word) : (s.setReg r v).output = s.output := rfl
@[simp] theorem setReg_cancelRequested (r : Reg) (v : Word) : (s.setReg r v).cancelRequested = s.cancelRequested := rfl
@[simp] theorem setReg_host (r : Reg) (v : Word) : (s.setReg r v).host = s.host := rfl

/-! ### setPc -/

@[simp] theorem setPc_regs (t : Word) : (s.setPc t).regs = s.regs := rfl
@[simp] theorem setPc_pc (t : Word) : (s.setPc t).pc = t := rfl
@[simp] theorem setPc_cond (t : Word) : (s.setPc t).cond = s.cond := rfl
@[simp] theorem setPc_mem (t : Word) : (s.setPc t).mem = s.mem := rfl
@[simp] theorem setPc_engine (t : Word) : (s.setPc t).engine = s.engine := rfl
@[simp] theorem setPc_outcome (t : Word) : (s.setPc t).outcome = s.outcome := rfl
@[simp] theorem setPc_activity (t : Word) : (s.setPc t).activity = s.activity := rfl
@[simp] theorem setPc_input (t : Word) : (s.setPc t).input = s.input := rfl
@[simp] theorem setPc_consumed (t : Word) : (s.setPc t).consumed = s.consumed := rfl
@[simp] theorem setPc_output (t : Word) : (s.setPc t).output = s.output := rfl
@[simp] theorem setPc_cancelRequested (t : Word) : (s.setPc t).cancelRequested = s.cancelRequested := rfl
@[simp] theorem setPc_host (t : Word) : (s.setPc t).host = s.host := rfl

/-! ### setCell -/

@[simp] theorem setCell_regs (a v : Word) : (s.setCell a v).regs = s.regs := rfl
@[simp] theorem setCell_pc (a v : Word) : (s.setCell a v).pc = s.pc := rfl
@[simp] theorem setCell_cond (a v : Word) : (s.setCell a v).cond = s.cond := rfl
@[simp] theorem setCell_mem (a v : Word) : (s.setCell a v).mem = Memory.write s.mem a.toNat v := rfl
@[simp] theorem setCell_engine (a v : Word) : (s.setCell a v).engine = s.engine := rfl
@[simp] theorem setCell_outcome (a v : Word) : (s.setCell a v).outcome = s.outcome := rfl
@[simp] theorem setCell_activity (a v : Word) : (s.setCell a v).activity = s.activity := rfl
@[simp] theorem setCell_input (a v : Word) : (s.setCell a v).input = s.input := rfl
@[simp] theorem setCell_consumed (a v : Word) : (s.setCell a v).consumed = s.consumed := rfl
@[simp] theorem setCell_output (a v : Word) : (s.setCell a v).output = s.output := rfl
@[simp] theorem setCell_cancelRequested (a v : Word) : (s.setCell a v).cancelRequested = s.cancelRequested := rfl
@[simp] theorem setCell_host (a v : Word) : (s.setCell a v).host = s.host := rfl

/-! ### memWrite -/

@[simp] theorem memWrite_regs (a v : Word) : (s.memWrite a v).regs = s.regs := rfl
@[simp] theorem memWrite_pc (a v : Word) : (s.memWrite a v).pc = s.pc := rfl
@[simp] theorem memWrite_cond (a v : Word) : (s.memWrite a v).cond = s.cond := rfl
@[simp] theorem memWrite_mem (a v : Word) : (s.memWrite a v).mem = Memory.write s.mem a.toNat v := rfl
@[simp] theorem memWrite_engine (a v : Word) : (s.memWrite a v).engine = s.engine := rfl
@[simp] theorem memWrite_outcome (a v : Word) : (s.memWrite a v).outcome = s.outcome := rfl
@[simp] theorem memWrite_activity (a v : Word) : (s.memWrite a v).activity = s.activity := rfl
@[simp] theorem memWrite_input (a v : Word) : (s.memWrite a v).input = s.input := rfl
@[simp] theorem memWrite_consumed (a v : Word) : (s.memWrite a v).consumed = s.consumed := rfl
@[simp] theorem memWrite_output (a v : Word) : (s.memWrite a v).output = s.output := rfl
@[simp] theorem memWrite_cancelRequested (a v : Word) : (s.memWrite a v).cancelRequested = s.cancelRequested := rfl
@[simp] theorem memWrite_host (a v : Word) : (s.memWrite a v).host = s.host := rfl

/-! ### emit -/

@[simp] theorem emit_regs (bs : List Byte) : (s.emit bs).regs = s.regs := rfl
@[simp] theorem emit_pc (bs : List Byte) : (s.emit bs).pc = s.pc := rfl
@[simp] theorem emit_cond (bs : List Byte) : (s.emit bs).cond = s.cond := rfl
@[simp] theorem emit_mem (bs : List Byte) : (s.emit bs).mem = s.mem := rfl
@[simp] theorem emit_engine (bs : List Byte) : (s.emit bs).engine = s.engine := rfl
@[simp] theorem emit_outcome (bs : List Byte) : (s.emit bs).outcome = s.outcome := rfl
@[simp] theorem emit_activity (bs : List Byte) : (s.emit bs).activity = s.activity := rfl
@[simp] theorem emit_input (bs : List Byte) : (s.emit bs).input = s.input := rfl
@[simp] theorem emit_consumed (bs : List Byte) : (s.emit bs).consumed = s.consumed := rfl
@[simp] theorem emit_output (bs : List Byte) : (s.emit bs).output = s.output ++ bs := rfl
@[simp] theorem emit_cancelRequested (bs : List Byte) : (s.emit bs).cancelRequested = s.cancelRequested := rfl
@[simp] theorem emit_host (bs : List Byte) : (s.emit bs).host = s.host := rfl

/-! ### setcc -/

@[simp] theorem setcc_regs (v : Word) : (s.setcc v).regs = s.regs := rfl
@[simp] theorem setcc_pc (v : Word) : (s.setcc v).pc = s.pc := rfl
@[simp] theorem setcc_cond (v : Word) : (s.setcc v).cond = flagOf v := rfl
@[simp] theorem setcc_mem (v : Word) : (s.setcc v).mem = s.mem := rfl
@[simp] theorem setcc_engine (v : Word) : (s.setcc v).engine = s.engine := rfl
@[simp] theorem setcc_outcome (v : Word) : (s.setcc v).outcome = s.outcome := rfl
@[simp] theorem setcc_activity (v : Word) : (s.setcc v).activity = s.activity := rfl
@[simp] theorem setcc_input (v : Word) : (s.setcc v).input = s.input := rfl
@[simp] theorem setcc_consumed (v : Word) : (s.setcc v).consumed = s.consumed := rfl
@[simp] theorem setcc_output (v : Word) : (s.setcc v).output = s.output := rfl
@[simp] theorem setcc_cancelRequested (v : Word) : (s.setcc v).cancelRequested = s.cancelRequested := rfl
@[simp] theorem setcc_host (v : Word) : (s.setcc v).host = s.host := rfl

/-! ### raiseFatal -/

@[simp] theorem raiseFatal_regs (op : BitVec 4) (w : Word) : (s.raiseFatal op w).regs = s.regs := rfl
@[simp] theorem raiseFatal_pc (op : BitVec 4) (w : Word) : (s.raiseFatal op w).pc = s.pc := rfl
@[simp] theorem raiseFatal_cond (op : BitVec 4) (w : Word) : (s.raiseFatal op w).cond = s.cond := rfl
@[simp] theorem raiseFatal_mem (op : BitVec 4) (w : Word) : (s.raiseFatal op w).mem = s.mem := rfl
@[simp] theorem raiseFatal_engine (op : BitVec 4) (w : Word) : (s.raiseFatal op w).engine = s.engine := rfl
@[simp] theorem raiseFatal_outcome (op : BitVec 4) (w : Word) : (s.raiseFatal op w).outcome = some (.fatal op w s.pc) := rfl
@[simp] theorem raiseFatal_activity (op : BitVec 4) (w : Word) : (s.raiseFatal op w).activity = s.activity := rfl
@[simp] theorem raiseFatal_input (op : BitVec 4) (w : Word) : (s.raiseFatal op w).input = s.input := rfl
@[simp] theorem raiseFatal_consumed (op : BitVec 4) (w : Word) : (s.raiseFatal op w).consumed = s.consumed := rfl
@[simp] theorem raiseFatal_output (op : BitVec 4) (w : Word) : (s.raiseFatal op w).output = s.output := rfl
@[simp] theorem raiseFatal_cancelRequested (op : BitVec 4) (w : Word) : (s.raiseFatal op w).cancelRequested = s.cancelRequested := rfl
@[simp] theorem raiseFatal_host (op : BitVec 4) (w : Word) : (s.raiseFatal op w).host = s.host := rfl

/-! ### haltEngine -/

@[simp] theorem haltEngine_regs : (s.haltEngine).regs = s.regs := rfl
@[simp] theorem haltEngine_pc : (s.haltEngine).pc = s.pc := rfl
@[simp] theorem haltEngine_cond : (s.haltEngine).cond = s.cond := rfl
@[simp] theorem haltEngine_mem : (s.haltEngine).mem = s.mem := rfl
@[simp] theorem haltEngine_engine : (s.haltEngine).engine = .halted := rfl
@[simp] theorem haltEngine_outcome : (s.haltEngine).outcome = some .halted := rfl
@[simp] theorem haltEngine_activity : (s.haltEngine).activity = s.activity := rfl
@[simp] theorem haltEngine_input : (s.haltEngine).input = s.input := rfl
@[simp] theorem haltEngine_consumed : (s.haltEngine).consumed = s.consumed := rfl
@[simp] theorem haltEngine_output : (s.haltEngine).output = s.output := rfl
@[simp] theorem haltEngine_cancelRequested : (s.haltEngine).cancelRequested = s.cancelRequested := rfl
@[simp] theorem haltEngine_host : (s.haltEngine).host = s.host := rfl

/-! ### takeCancel -/

@[simp] theorem takeCancel_regs : (s.takeCancel).regs = s.regs := rfl
@[simp] theorem takeCancel_pc : (s.takeCancel).pc = s.pc := rfl
@[simp] theorem takeCancel_cond : (s.takeCancel).cond = s.cond := rfl
@[simp] theorem takeCancel_mem : (s.takeCancel).mem = s.mem := rfl
@[simp] theorem takeCancel_engine : (s.takeCancel).engine = s.engine := rfl
@[simp] theorem takeCancel_outcome : (s.takeCancel).outcome = some .cancelled := rfl
@[simp] theorem takeCancel_activity : (s.takeCancel).activity = .boundary := rfl
@[simp] theorem takeCancel_input : (s.takeCancel).input = s.input := rfl
@[simp] theorem takeCancel_consumed : (s.takeCancel).consumed = s.consumed := rfl
@[simp] theorem takeCancel_output : (s.takeCancel).output = s.output := rfl
@[simp] theorem takeCancel_cancelRequested : (s.takeCancel).cancelRequested = s.cancelRequested := rfl
@[simp] theorem takeCancel_host : (s.takeCancel).host = s.host := rfl

end Sys2Proof.Machine
end

