-- ==== Sys2Proof/Laws/Memory.lean ====
section
/-!
SUPPORT. The laws of memory: a read after a write, the canonical form kept, and equal reads of
canonical memories being equal memories.
-/

namespace Sys2Proof.Machine

/-- Every listed address is above `a`. -/
def Memory.above (a : Nat) (m : Memory) : Prop := ∀ c ∈ m, a < c.1

theorem wf_cons {c : Nat × Word} {m : Memory} :
    Memory.wf (c :: m) ↔ Memory.above c.1 m ∧ (c.1 < 65536 ∧ c.2 ≠ 0) ∧ Memory.wf m := by
  simp only [Memory.wf, Memory.above, List.pairwise_cons, List.forall_mem_cons]
  tauto

theorem read_cons (b a : Nat) (v : Word) (m : Memory) :
    Memory.read ((b, v) :: m) a = if a = b then v else Memory.read m a := rfl

theorem read_of_above {a : Nat} {m : Memory} (h : Memory.above a m) : Memory.read m a = 0 := by
  induction m with
  | nil => rfl
  | cons c m ih =>
    have hc := h c (by simp)
    rw [show c = (c.1, c.2) from rfl, read_cons, if_neg (by omega)]
    exact ih fun d hd => h d (by simp [hd])

theorem above_mono {a b : Nat} {m : Memory} (h : Memory.above b m) (hab : a ≤ b) :
    Memory.above a m := fun c hc => Nat.lt_of_le_of_lt hab (h c hc)

theorem mem_erase {m : Memory} {a : Nat} {c : Nat × Word} (h : c ∈ Memory.erase m a) : c ∈ m := by
  induction m with
  | nil => simp [Memory.erase] at h
  | cons d m ih =>
    simp only [Memory.erase] at h
    split at h
    · exact List.mem_cons_of_mem _ h
    · rcases List.mem_cons.1 h with rfl | h
      · exact List.mem_cons_self
      · exact List.mem_cons_of_mem _ (ih h)

theorem mem_insert {m : Memory} {a : Nat} {v : Word} {c : Nat × Word}
    (h : c ∈ Memory.insert m a v) : c = (a, v) ∨ c ∈ m := by
  induction m with
  | nil => simpa [Memory.insert] using h
  | cons d m ih =>
    simp only [Memory.insert] at h
    split at h
    · rcases List.mem_cons.1 h with rfl | h <;> simp_all
    · split at h
      · simpa using h
      · rcases List.mem_cons.1 h with rfl | h
        · simp
        · rcases ih h with rfl | h <;> simp_all

theorem erase_wf {m : Memory} (h : Memory.wf m) (a : Nat) : Memory.wf (Memory.erase m a) := by
  induction m with
  | nil => exact h
  | cons d m ih =>
    obtain ⟨hd, hv, hm⟩ := wf_cons.1 h
    simp only [Memory.erase]
    split
    · exact hm
    · exact wf_cons.2 ⟨fun c hc => hd c (mem_erase hc), hv, ih hm⟩

theorem insert_wf {m : Memory} (h : Memory.wf m) {a : Nat} (ha : a < 65536) {v : Word}
    (hv : v ≠ 0) : Memory.wf (Memory.insert m a v) := by
  induction m with
  | nil => exact wf_cons.2 ⟨fun c hc => by simp at hc, ⟨ha, hv⟩, h⟩
  | cons d m ih =>
    obtain ⟨hd, hdv, hm⟩ := wf_cons.1 h
    simp only [Memory.insert]
    split
    · rename_i he
      exact wf_cons.2 ⟨by simpa [he] using hd, ⟨ha, hv⟩, hm⟩
    · split
      · rename_i hlt
        refine wf_cons.2 ⟨fun c hc => ?_, ⟨ha, hv⟩, h⟩
        rcases List.mem_cons.1 hc with rfl | hc
        · exact hlt
        · exact Nat.lt_trans hlt (hd c hc)
      · refine wf_cons.2 ⟨fun c hc => ?_, hdv, ih hm⟩
        rcases mem_insert hc with rfl | hc
        · show d.1 < a
          omega
        · exact hd c hc

/-- A write keeps the canonical form. -/
theorem write_wf {m : Memory} (h : Memory.wf m) {a : Nat} (ha : a < 65536) (v : Word) :
    Memory.wf (Memory.write m a v) := by
  unfold Memory.write
  split
  · exact erase_wf h a
  · exact insert_wf h ha ‹_›

theorem read_erase_same {m : Memory} (h : Memory.wf m) (a : Nat) :
    Memory.read (Memory.erase m a) a = 0 := by
  induction m with
  | nil => rfl
  | cons d m ih =>
    obtain ⟨hd, -, hm⟩ := wf_cons.1 h
    simp only [Memory.erase]
    split
    · rename_i he
      exact read_of_above (he ▸ hd)
    · rw [read_cons, if_neg ‹_›, ih hm]

theorem read_erase_other (m : Memory) {a b : Nat} (hab : b ≠ a) :
    Memory.read (Memory.erase m a) b = Memory.read m b := by
  induction m with
  | nil => rfl
  | cons d m ih =>
    simp only [Memory.erase]
    split
    · rename_i he
      rw [show d = (d.1, d.2) from rfl, read_cons, if_neg (he ▸ hab)]
    · simp only [Memory.read, ih]

theorem read_insert_same (m : Memory) (a : Nat) (v : Word) :
    Memory.read (Memory.insert m a v) a = v := by
  induction m with
  | nil => simp [Memory.insert, Memory.read]
  | cons d m ih =>
    simp only [Memory.insert]
    split
    · simp [Memory.read]
    · split
      · simp [Memory.read]
      · rw [read_cons, if_neg ‹_›, ih]

theorem read_insert_other (m : Memory) {a b : Nat} (v : Word) (hab : b ≠ a) :
    Memory.read (Memory.insert m a v) b = Memory.read m b := by
  induction m with
  | nil => simp [Memory.insert, Memory.read, hab]
  | cons d m ih =>
    simp only [Memory.insert]
    split
    · rename_i he
      simp [Memory.read, hab, ← he]
    · split
      · simp [Memory.read, hab]
      · simp only [Memory.read, ih]

/-- A read after a write to the same cell gives the word written. -/
theorem read_write_same {m : Memory} (h : Memory.wf m) (a : Nat) (v : Word) :
    Memory.read (Memory.write m a v) a = v := by
  unfold Memory.write
  split
  · rename_i hv
    rw [read_erase_same h, hv]
  · exact read_insert_same m a v

/-- A write leaves every other cell alone. -/
theorem read_write_other (m : Memory) {a b : Nat} (v : Word) (hab : b ≠ a) :
    Memory.read (Memory.write m a v) b = Memory.read m b := by
  unfold Memory.write
  split
  · exact read_erase_other m hab
  · exact read_insert_other m v hab

/-! ### Cells of a state -/

@[simp] theorem cell_setCell_same {s : State} (h : Memory.wf s.mem) (a v : Word) :
    (s.setCell a v).cell a = v := read_write_same h a.toNat v

theorem cell_setCell_other (s : State) {a b : Word} (v : Word) (hab : b ≠ a) :
    (s.setCell a v).cell b = s.cell b :=
  read_write_other s.mem v fun h => hab (BitVec.eq_of_toNat_eq h)

theorem setCell_wf {s : State} (h : Memory.wf s.mem) (a v : Word) :
    Memory.wf (s.setCell a v).mem := write_wf h a.isLt v

/-- `cell` depends on the memory alone. -/
theorem cell_congr {s t : State} (h : s.mem = t.mem) (a : Word) : s.cell a = t.cell a := by
  simp only [State.cell, h]

@[simp] theorem cell_setReg (s : State) (r : Reg) (v a : Word) :
    (s.setReg r v).cell a = s.cell a := rfl

@[simp] theorem cell_setPc (s : State) (t a : Word) : (s.setPc t).cell a = s.cell a := rfl

@[simp] theorem cell_emit (s : State) (bs : List Byte) (a : Word) :
    (s.emit bs).cell a = s.cell a := rfl

@[simp] theorem cell_setcc (s : State) (v a : Word) : (s.setcc v).cell a = s.cell a := rfl

end Sys2Proof.Machine
end

