-- ==== Sys2Proof/Laws/Loader.lean ====
section
/-!
SUPPORT. What the loader's parts do (70_reset_and_hazards.md R242): the value of a big-endian word, how
many words an image has, and that a load keeps the canonical form and leaves lower cells alone.
-/

namespace Sys2Proof.Machine

/-- A big-endian word is its first byte times 256 plus its second (R242). -/
theorem toNat_bigEndian (hi lo : Byte) : (hi ++ lo : Word).toNat = hi.toNat * 256 + lo.toNat := by
  rw [BitVec.toNat_append, ← Nat.shiftLeft_add_eq_or_of_lt lo.isLt, Nat.shiftLeft_eq]

/-- A trailing odd byte gives no word (D16). -/
theorem wordsOfBytes_length : (bytes : List Byte) → (wordsOfBytes bytes).length = bytes.length / 2
  | [] => by simp [wordsOfBytes]
  | [_] => by simp [wordsOfBytes]
  | _ :: _ :: rest => by
    simp only [wordsOfBytes, List.length_cons, wordsOfBytes_length rest]
    omega

/-- A load keeps the canonical form. -/
theorem loadWords_wf (ws : List Word) (a : Nat) {m : Memory} (h : Memory.wf m) :
    Memory.wf (loadWords a ws m) := by
  induction ws generalizing a m with
  | nil => exact h
  | cons w ws ih =>
    unfold loadWords
    split
    · exact ih _ (write_wf h ‹_› w)
    · exact h

/-- A load leaves the cells below its start alone. -/
theorem read_loadWords_below (ws : List Word) {a b : Nat} (m : Memory) (h : b < a) :
    Memory.read (loadWords a ws m) b = Memory.read m b := by
  induction ws generalizing a m with
  | nil => rfl
  | cons w ws ih =>
    unfold loadWords
    split
    · rw [ih _ (by omega), read_write_other _ _ (by omega)]
    · rfl

end Sys2Proof.Machine
end

