-- ==== Sys2Proof/Laws/Ops.lean ====
section
/-!
SUPPORT. One spec lemma for each shared operation over registers, console, keyboard and flags: what it
answers and what it leaves alone. Proofs cite these and do not unfold the operations.
-/

namespace Sys2Proof.Machine

/-! ### Registers -/

@[simp] theorem reg_setReg_same (s : State) (r : Reg) (v : Word) : (s.setReg r v).reg r = v := by
  simp [State.reg, State.setReg]

theorem reg_setReg_other (s : State) {r q : Reg} (v : Word) (h : q ≠ r) :
    (s.setReg r v).reg q = s.reg q := by
  have h' : r.val ≠ q.val := fun e => h (Fin.ext e.symm)
  simp [State.reg, State.setReg, h']

/-- `reg` depends on the register file alone. -/
theorem reg_congr {s t : State} (h : s.regs = t.regs) (r : Reg) : s.reg r = t.reg r := by
  simp only [State.reg, h]

@[simp] theorem reg_setCell (s : State) (a v : Word) (r : Reg) : (s.setCell a v).reg r = s.reg r :=
  rfl

@[simp] theorem reg_setPc (s : State) (t : Word) (r : Reg) : (s.setPc t).reg r = s.reg r := rfl

@[simp] theorem reg_emit (s : State) (bs : List Byte) (r : Reg) : (s.emit bs).reg r = s.reg r := rfl

@[simp] theorem reg_setcc (s : State) (v : Word) (r : Reg) : (s.setcc v).reg r = s.reg r := rfl

/-! ### Console input -/

theorem readChar_nil {s : State} (h : s.input = []) : s.readChar = none := by
  simp only [State.readChar, h]

theorem readChar_cons {s : State} {b : Byte} {rest : List Byte} (h : s.input = b :: rest) :
    s.readChar = some (b, { s with input := rest, consumed := s.consumed ++ [b] }) := by
  simp only [State.readChar, h]

/-! ### The poll (20_memory.md R56) -/

theorem poll_nil {s : State} (h : s.input = []) : s.poll = s.setCell kbsrAddr 0 := by
  simp only [State.poll, readChar_nil h]

theorem poll_cons {s : State} {b : Byte} {rest : List Byte} (h : s.input = b :: rest) :
    s.poll =
      (({ s with input := rest, consumed := s.consumed ++ [b] } : State).setCell kbdrAddr
        (zext16 b)).setCell kbsrAddr kbsrReady := by
  simp only [State.poll, readChar_cons h]

/-- Everything a poll can do. -/
theorem poll_cases (s : State) :
    (s.input = [] ∧ s.poll = s.setCell kbsrAddr 0) ∨
    ∃ b rest, s.input = b :: rest ∧ s.poll =
      (({ s with input := rest, consumed := s.consumed ++ [b] } : State).setCell kbdrAddr
        (zext16 b)).setCell kbsrAddr kbsrReady := by
  cases h : s.input with
  | nil => exact .inl ⟨rfl, poll_nil h⟩
  | cons b rest => exact .inr ⟨b, rest, rfl, poll_cons h⟩

@[simp] theorem poll_regs (s : State) : s.poll.regs = s.regs := by
  rcases poll_cases s with ⟨_, h⟩ | ⟨b, r, _, h⟩ <;> rw [h] <;> rfl

@[simp] theorem poll_pc (s : State) : s.poll.pc = s.pc := by
  rcases poll_cases s with ⟨_, h⟩ | ⟨b, r, _, h⟩ <;> rw [h] <;> rfl

@[simp] theorem poll_cond (s : State) : s.poll.cond = s.cond := by
  rcases poll_cases s with ⟨_, h⟩ | ⟨b, r, _, h⟩ <;> rw [h] <;> rfl

@[simp] theorem poll_engine (s : State) : s.poll.engine = s.engine := by
  rcases poll_cases s with ⟨_, h⟩ | ⟨b, r, _, h⟩ <;> rw [h] <;> rfl

@[simp] theorem poll_outcome (s : State) : s.poll.outcome = s.outcome := by
  rcases poll_cases s with ⟨_, h⟩ | ⟨b, r, _, h⟩ <;> rw [h] <;> rfl

@[simp] theorem poll_activity (s : State) : s.poll.activity = s.activity := by
  rcases poll_cases s with ⟨_, h⟩ | ⟨b, r, _, h⟩ <;> rw [h] <;> rfl

@[simp] theorem poll_output (s : State) : s.poll.output = s.output := by
  rcases poll_cases s with ⟨_, h⟩ | ⟨b, r, _, h⟩ <;> rw [h] <;> rfl

@[simp] theorem poll_cancelRequested (s : State) : s.poll.cancelRequested = s.cancelRequested := by
  rcases poll_cases s with ⟨_, h⟩ | ⟨b, r, _, h⟩ <;> rw [h] <;> rfl

@[simp] theorem poll_host (s : State) : s.poll.host = s.host := by
  rcases poll_cases s with ⟨_, h⟩ | ⟨b, r, _, h⟩ <;> rw [h] <;> rfl

/-- A poll keeps the canonical form. -/
theorem poll_wf {s : State} (h : Memory.wf s.mem) : Memory.wf s.poll.mem := by
  rcases poll_cases s with ⟨_, e⟩ | ⟨b, r, _, e⟩ <;> rw [e]
  · exact setCell_wf h _ _
  · exact setCell_wf (setCell_wf h _ _) _ _

/-- A poll writes no cell but KBSR and KBDR. -/
theorem poll_cell_other (s : State) {a : Word} (h1 : a ≠ kbsrAddr) (h2 : a ≠ kbdrAddr) :
    s.poll.cell a = s.cell a := by
  rcases poll_cases s with ⟨_, e⟩ | ⟨b, r, _, e⟩ <;> rw [e]
  · rw [cell_setCell_other _ _ h1]
  · rw [cell_setCell_other _ _ h1, cell_setCell_other _ _ h2]
    rfl

/-- What a KBSR read returns (20_memory.md R55). -/
theorem poll_kbsr {s : State} (h : Memory.wf s.mem) :
    s.poll.cell kbsrAddr = if s.input = [] then 0 else kbsrReady := by
  rcases poll_cases s with ⟨hi, e⟩ | ⟨b, r, hi, e⟩ <;> rw [e]
  · rw [cell_setCell_same h, if_pos hi]
  · rw [if_neg (by simp [hi])]
    exact cell_setCell_same (by exact setCell_wf (by exact h) _ _) _ _

/-! ### The memory interface (20_memory.md R53) -/

theorem polledFor_other (s : State) {a : Word} (h : a ≠ kbsrAddr) : s.polledFor a = s :=
  if_neg h

theorem polledFor_kbsr (s : State) : s.polledFor kbsrAddr = s.poll := if_pos rfl

/-- A read of an ordinary address changes nothing (R52). -/
theorem memRead_other (s : State) {a : Word} (h : a ≠ kbsrAddr) : s.memRead a = (s.cell a, s) := by
  simp only [State.memRead, polledFor_other s h]

theorem memRead_kbsr (s : State) : s.memRead kbsrAddr = (s.poll.cell kbsrAddr, s.poll) := by
  simp only [State.memRead, polledFor_kbsr]

/-- The state after a read is the state before it or a polled one. -/
theorem memRead_snd (s : State) (a : Word) :
    (s.memRead a).2 = s ∨ (a = kbsrAddr ∧ (s.memRead a).2 = s.poll) := by
  by_cases h : a = kbsrAddr
  · exact .inr ⟨h, by rw [h, memRead_kbsr]⟩
  · exact .inl (by rw [memRead_other s h])

/-- A read keeps the canonical form. -/
theorem memRead_wf {s : State} (h : Memory.wf s.mem) (a : Word) :
    Memory.wf (s.memRead a).2.mem := by
  rcases memRead_snd s a with e | ⟨_, e⟩ <;> rw [e]
  · exact h
  · exact poll_wf h

/-- A read followed by anything that reads only the fields a poll leaves alone. -/
theorem memRead_field {α : Type} (f : State → α) (hf : ∀ s : State, f s.poll = f s) (s : State)
    (a : Word) : f (s.memRead a).2 = f s := by
  rcases memRead_snd s a with e | ⟨_, e⟩ <;> rw [e]
  exact hf s

@[simp] theorem memRead_regs (s : State) (a : Word) : (s.memRead a).2.regs = s.regs :=
  memRead_field State.regs poll_regs s a

@[simp] theorem memRead_pc (s : State) (a : Word) : (s.memRead a).2.pc = s.pc :=
  memRead_field State.pc poll_pc s a

@[simp] theorem memRead_cond (s : State) (a : Word) : (s.memRead a).2.cond = s.cond :=
  memRead_field State.cond poll_cond s a

@[simp] theorem memRead_engine (s : State) (a : Word) : (s.memRead a).2.engine = s.engine :=
  memRead_field State.engine poll_engine s a

@[simp] theorem memRead_outcome (s : State) (a : Word) : (s.memRead a).2.outcome = s.outcome :=
  memRead_field State.outcome poll_outcome s a

@[simp] theorem memRead_activity (s : State) (a : Word) :
    (s.memRead a).2.activity = s.activity := memRead_field State.activity poll_activity s a

@[simp] theorem memRead_output (s : State) (a : Word) : (s.memRead a).2.output = s.output :=
  memRead_field State.output poll_output s a

@[simp] theorem memRead_cancelRequested (s : State) (a : Word) :
    (s.memRead a).2.cancelRequested = s.cancelRequested :=
  memRead_field State.cancelRequested poll_cancelRequested s a

@[simp] theorem memRead_host (s : State) (a : Word) : (s.memRead a).2.host = s.host :=
  memRead_field State.host poll_host s a

/-! ### Flags and results (10_state.md R26) -/

/-- The flag of a result, by its signed reading (R25). -/
theorem flagOf_signed (v : Word) :
    flagOf v = if v.toInt < 0 then flagN else if v.toInt = 0 then flagZ else flagP := by
  have hz : v.toInt = 0 ↔ v = 0 := by
    rw [← BitVec.toInt_inj]
    simp
  have hn : v.toInt < 0 ↔ v.getLsbD 15 = true := by
    have := BitVec.msb_eq_toInt (x := v)
    rw [BitVec.msb_eq_getLsbD_last] at this
    simp_all
  unfold flagOf
  by_cases h0 : v = 0
  · subst h0
    decide
  · by_cases hs : v.getLsbD 15 = true
    · rw [if_neg h0, if_pos hs, if_pos (hn.2 hs)]
    · rw [if_neg h0, if_neg hs, if_neg (fun h => hs (hn.1 h)), if_neg (fun h => h0 (hz.1 h))]

/-- Exactly one flag is set by a result. -/
theorem flagOf_legal (v : Word) : flagOf v = flagN ∨ flagOf v = flagZ ∨ flagOf v = flagP := by
  unfold flagOf
  split
  · exact .inr (.inl rfl)
  · split
    · exact .inl rfl
    · exact .inr (.inr rfl)

/-- A result in its destination register and its flag, as one record update. -/
theorem writeResult_eq (s : State) (dr : Reg) (v : Word) :
    s.writeResult dr v = { s with regs := s.regs.set dr.val v, cond := flagOf v } := by
  simp only [State.writeResult, reg_setReg_same]
  rfl

@[simp] theorem writeResult_reg_same (s : State) (dr : Reg) (v : Word) :
    (s.writeResult dr v).reg dr = v := by
  simp [State.writeResult]

theorem writeResult_reg_other (s : State) {dr r : Reg} (v : Word) (h : r ≠ dr) :
    (s.writeResult dr v).reg r = s.reg r := by
  simp [State.writeResult, reg_setReg_other s v h]

@[simp] theorem writeResult_cond (s : State) (dr : Reg) (v : Word) :
    (s.writeResult dr v).cond = flagOf v := by
  rw [writeResult_eq]

@[simp] theorem writeResult_cell (s : State) (dr : Reg) (v a : Word) :
    (s.writeResult dr v).cell a = s.cell a := rfl

@[simp] theorem writeResult_pc (s : State) (dr : Reg) (v : Word) :
    (s.writeResult dr v).pc = s.pc := rfl

@[simp] theorem writeResult_mem (s : State) (dr : Reg) (v : Word) :
    (s.writeResult dr v).mem = s.mem := rfl

@[simp] theorem writeResult_engine (s : State) (dr : Reg) (v : Word) :
    (s.writeResult dr v).engine = s.engine := rfl

@[simp] theorem writeResult_outcome (s : State) (dr : Reg) (v : Word) :
    (s.writeResult dr v).outcome = s.outcome := rfl

@[simp] theorem writeResult_activity (s : State) (dr : Reg) (v : Word) :
    (s.writeResult dr v).activity = s.activity := rfl

@[simp] theorem writeResult_input (s : State) (dr : Reg) (v : Word) :
    (s.writeResult dr v).input = s.input := rfl

@[simp] theorem writeResult_consumed (s : State) (dr : Reg) (v : Word) :
    (s.writeResult dr v).consumed = s.consumed := rfl

@[simp] theorem writeResult_output (s : State) (dr : Reg) (v : Word) :
    (s.writeResult dr v).output = s.output := rfl

@[simp] theorem writeResult_cancelRequested (s : State) (dr : Reg) (v : Word) :
    (s.writeResult dr v).cancelRequested = s.cancelRequested := rfl

@[simp] theorem writeResult_host (s : State) (dr : Reg) (v : Word) :
    (s.writeResult dr v).host = s.host := rfl

/-! ### The fetch, and the end of a run -/

/-- A fetch from an ordinary address changes nothing but the PC (40_cycle.md R125). -/
theorem fetch_other {s : State} (h : s.pc ≠ kbsrAddr) :
    s.fetch = (s.cell s.pc, s.setPc (s.pc + 1)) := by
  simp only [State.fetch, memRead_other s h]

/-- A step may be taken exactly while no outcome is recorded and the engine is RUNNING (R120). -/
theorem ended_eq_none (s : State) : s.ended = none ↔ s.outcome = none ∧ s.engine = .running := by
  unfold State.ended
  cases s.outcome <;> cases s.engine <;> simp

/-! ### The host's turn -/

@[simp] theorem next_coming (slot : HostSlot) (rest : List HostSlot) (later : HostLater) :
    HostSchedule.next ⟨slot :: rest, later⟩ = (slot, ⟨rest, later⟩) := rfl

@[simp] theorem next_cycle (slot : HostSlot) (rest : List HostSlot) :
    HostSchedule.next ⟨[], .cycle (slot :: rest)⟩ = (slot, ⟨rest, .cycle (slot :: rest)⟩) := rfl

@[simp] theorem next_idle :
    HostSchedule.next ⟨[], .cycle []⟩ = (⟨[], false⟩, ⟨[], .cycle []⟩) := rfl

@[simp] theorem next_unknown (n : Nat) : HostSchedule.next ⟨[], .unknown n⟩ =
    (⟨Config.hostBytes n, Config.hostCancels n⟩, ⟨[], .unknown (n + 1)⟩) := rfl

/-- The turn before a step that is to fetch requests nothing. -/
@[simp] theorem withoutNextRequest_cancel (h : HostSchedule) :
    h.withoutNextRequest.next.1.cancel = false := rfl

/-- The host's turn touches the input, the request and the schedule only. -/
theorem hostActs_eq (s : State) : ∃ bytes cancel rest, s.hostActs =
    { s with input := s.input ++ bytes, cancelRequested := s.cancelRequested || cancel,
             host := rest } :=
  ⟨_, _, _, rfl⟩

@[simp] theorem hostActs_regs (s : State) : s.hostActs.regs = s.regs := rfl
@[simp] theorem hostActs_pc (s : State) : s.hostActs.pc = s.pc := rfl
@[simp] theorem hostActs_cond (s : State) : s.hostActs.cond = s.cond := rfl
@[simp] theorem hostActs_mem (s : State) : s.hostActs.mem = s.mem := rfl
@[simp] theorem hostActs_engine (s : State) : s.hostActs.engine = s.engine := rfl
@[simp] theorem hostActs_outcome (s : State) : s.hostActs.outcome = s.outcome := rfl
@[simp] theorem hostActs_activity (s : State) : s.hostActs.activity = s.activity := rfl
@[simp] theorem hostActs_input (s : State) :
    s.hostActs.input = s.input ++ s.host.next.1.bytes := rfl
@[simp] theorem hostActs_consumed (s : State) : s.hostActs.consumed = s.consumed := rfl
@[simp] theorem hostActs_output (s : State) : s.hostActs.output = s.output := rfl
@[simp] theorem hostActs_cancelRequested (s : State) :
    s.hostActs.cancelRequested = (s.cancelRequested || s.host.next.1.cancel) := rfl
@[simp] theorem hostActs_host (s : State) : s.hostActs.host = s.host.next.2 := rfl

end Sys2Proof.Machine
end

