-- ==== Sys2Proof/Laws/Operands.lean ====
section
/-!
SUPPORT. Sign and zero extension bit by bit and as numbers, and computed addresses as exact sums taken
modulo 2^16 (00_scope.md R10, 20_memory.md R51).
-/

namespace Sys2Proof.Machine

/-- The bits of a sign-extended field (R10). -/
theorem getLsbD_sext {n : Nat} (v : BitVec n) (k : Nat) (h : k < 16) :
    (sext v).getLsbD k = if k < n then v.getLsbD k else v.getLsbD (n - 1) := by
  rw [sext, BitVec.getLsbD_signExtend]
  simp [h, BitVec.msb_eq_getLsbD_last]

/-- The bits of a zero-extended byte (R10). -/
theorem getLsbD_zext16 (b : Byte) (k : Nat) (h : k < 16) :
    (zext16 b).getLsbD k = if k < 8 then b.getLsbD k else false := by
  rw [zext16, BitVec.getLsbD_setWidth]
  by_cases hk : k < 8
  · simp [h, hk]
  · simp [hk, BitVec.getLsbD_of_ge b k (by omega)]

@[simp] theorem toNat_zext16 (b : Byte) : (zext16 b).toNat = b.toNat := by
  have := b.isLt
  rw [zext16, BitVec.toNat_setWidth, Nat.mod_eq_of_lt (by omega)]

theorem toNat_lowByte (w : Word) : (lowByte w).toNat = w.toNat % 256 := by
  simp [lowByte]

theorem toNat_highByte (w : Word) : (highByte w).toNat = w.toNat / 256 := by
  have := w.isLt
  rw [highByte, BitVec.extractLsb'_toNat, Nat.shiftRight_eq_div_pow]
  omega

/-- A sign-extended field stands for its signed value. -/
theorem sext_eq_ofInt {n : Nat} (v : BitVec n) : sext v = BitVec.ofInt 16 v.toInt := by
  simp [sext, BitVec.signExtend]

/-- Base plus signed offset is the exact sum taken modulo 2^16 (R51). -/
theorem add_sext {n : Nat} (a : Word) (off : BitVec n) :
    a + sext off = BitVec.ofInt 16 ((a.toNat : Int) + off.toInt) := by
  rw [sext_eq_ofInt, BitVec.ofInt_add]
  simp

/-- Modulo 2^16 the unsigned and the signed reading of the base give the same sum (41_operate.md
R133). -/
theorem ofInt_toNat_add (a : Word) (i : Int) :
    BitVec.ofInt 16 ((a.toNat : Int) + i) = BitVec.ofInt 16 (a.toInt + i) := by
  rw [BitVec.ofInt_add, BitVec.ofInt_add]
  simp

end Sys2Proof.Machine
end

