-- ==== Sys2Proof/Laws/PerInstr.lean ====
section
/-!
SUPPORT. Families of statements about every instruction as syntax, one lemma per constructor.
-/

namespace Sys2Proof.Laws

/-- The opcode of each instruction (30_encoding.md R82, R94). -/
def opcodeOf : Instr → Opcode
  | .addReg _ _ _ => .add
  | .addImm _ _ _ => .add
  | .andReg _ _ _ => .and
  | .andImm _ _ _ => .and
  | .not _ _ => .not
  | .br _ _ => .br
  | .jmp _ => .jmp
  | .ret => .jmp
  | .jsr _ => .jsr
  | .jsrr _ => .jsr
  | .ld _ _ => .ld
  | .ldi _ _ => .ldi
  | .ldr _ _ _ => .ldr
  | .lea _ _ => .lea
  | .st _ _ => .st
  | .sti _ _ => .sti
  | .str _ _ _ => .str
  | .trap _ => .trap
  | .getc => .trap
  | .out => .trap
  | .puts => .trap
  | .inp => .trap
  | .putsp => .trap
  | .halt => .trap
  | .rti _ => .rti
  | .res _ => .res

end Sys2Proof.Laws

/-- Bits 15:12 of an instruction's word are its opcode's number (R81, R82). -/
def Sys2Proof.Laws.OpcodeOfEncoding.Statement (i : Sys2Proof.Instr) : Prop :=
  Sys2Proof.opcodeField (Sys2Proof.encode i) = (Sys2Proof.Laws.opcodeOf i).number

namespace Sys2Proof.Laws.OpcodeOfEncoding

theorem addReg (dr sr1 sr2 : Reg) : Statement (.addReg dr sr1 sr2) := by
  simp [Statement, opcodeField, encode, opcodeOf, field_place_same, field_place_below]

theorem addImm (dr sr1 : Reg) (imm5 : BitVec 5) : Statement (.addImm dr sr1 imm5) := by
  simp [Statement, opcodeField, encode, opcodeOf, field_place_same, field_place_below]

theorem andReg (dr sr1 sr2 : Reg) : Statement (.andReg dr sr1 sr2) := by
  simp [Statement, opcodeField, encode, opcodeOf, field_place_same, field_place_below]

theorem andImm (dr sr1 : Reg) (imm5 : BitVec 5) : Statement (.andImm dr sr1 imm5) := by
  simp [Statement, opcodeField, encode, opcodeOf, field_place_same, field_place_below]

theorem not (dr sr : Reg) : Statement (.not dr sr) := by
  simp [Statement, opcodeField, encode, opcodeOf, field_place_same, field_place_below]

theorem br (nzp : BitVec 3) (off9 : BitVec 9) : Statement (.br nzp off9) := by
  simp [Statement, opcodeField, encode, opcodeOf, field_place_same, field_place_below]

theorem jmp (base : Reg) : Statement (.jmp base) := by
  simp [Statement, opcodeField, encode, opcodeOf, field_place_same, field_place_below]

theorem ret : Statement .ret := by
  simp [Statement, opcodeField, encode, opcodeOf, field_place_same, field_place_below]

theorem jsr (off11 : BitVec 11) : Statement (.jsr off11) := by
  simp [Statement, opcodeField, encode, opcodeOf, field_place_same, field_place_below]

theorem jsrr (base : Reg) : Statement (.jsrr base) := by
  simp [Statement, opcodeField, encode, opcodeOf, field_place_same, field_place_below]

theorem ld (dr : Reg) (off9 : BitVec 9) : Statement (.ld dr off9) := by
  simp [Statement, opcodeField, encode, opcodeOf, field_place_same, field_place_below]

theorem ldi (dr : Reg) (off9 : BitVec 9) : Statement (.ldi dr off9) := by
  simp [Statement, opcodeField, encode, opcodeOf, field_place_same, field_place_below]

theorem ldr (dr base : Reg) (off6 : BitVec 6) : Statement (.ldr dr base off6) := by
  simp [Statement, opcodeField, encode, opcodeOf, field_place_same, field_place_below]

theorem lea (dr : Reg) (off9 : BitVec 9) : Statement (.lea dr off9) := by
  simp [Statement, opcodeField, encode, opcodeOf, field_place_same, field_place_below]

theorem st (sr : Reg) (off9 : BitVec 9) : Statement (.st sr off9) := by
  simp [Statement, opcodeField, encode, opcodeOf, field_place_same, field_place_below]

theorem sti (sr : Reg) (off9 : BitVec 9) : Statement (.sti sr off9) := by
  simp [Statement, opcodeField, encode, opcodeOf, field_place_same, field_place_below]

theorem str (sr base : Reg) (off6 : BitVec 6) : Statement (.str sr base off6) := by
  simp [Statement, opcodeField, encode, opcodeOf, field_place_same, field_place_below]

theorem trap (vect8 : BitVec 8) : Statement (.trap vect8) := by
  simp [Statement, opcodeField, encode, opcodeOf, field_place_same, field_place_below]

theorem getc : Statement .getc := by
  simp [Statement, opcodeField, encode, opcodeOf, field_place_same, field_place_below]

theorem out : Statement .out := by
  simp [Statement, opcodeField, encode, opcodeOf, field_place_same, field_place_below]

theorem puts : Statement .puts := by
  simp [Statement, opcodeField, encode, opcodeOf, field_place_same, field_place_below]

theorem inp : Statement .inp := by
  simp [Statement, opcodeField, encode, opcodeOf, field_place_same, field_place_below]

theorem putsp : Statement .putsp := by
  simp [Statement, opcodeField, encode, opcodeOf, field_place_same, field_place_below]

theorem halt : Statement .halt := by
  simp [Statement, opcodeField, encode, opcodeOf, field_place_same, field_place_below]

theorem rti (low : BitVec 12) : Statement (.rti low) := by
  simp [Statement, opcodeField, encode, opcodeOf, field_place_same, field_place_below]

theorem res (low : BitVec 12) : Statement (.res low) := by
  simp [Statement, opcodeField, encode, opcodeOf, field_place_same, field_place_below]

end Sys2Proof.Laws.OpcodeOfEncoding
end

