-- ==== Sys2Proof/Laws/Trap.lean ====
section
/-!
SUPPORT. The trap routines' spec lemmas, and the inversion of `step`: everything one model step can be.
-/

namespace Sys2Proof.Machine

/-! ### GETC and IN -/

theorem getcRead_nil {s : State} (h : s.input = []) :
    s.getcRead = { s with activity := .getcRead } := by
  simp only [State.getcRead, readChar_nil h]

theorem getcRead_cons {s : State} {b : Byte} {rest : List Byte} (h : s.input = b :: rest) :
    s.getcRead = { s with
      regs := s.regs.set 0 (zext16 b), input := rest, consumed := s.consumed ++ [b]
      activity := .boundary } := by
  simp only [State.getcRead, readChar_cons h]
  rfl

theorem inRead_nil {s : State} (h : s.input = []) : s.inRead = { s with activity := .inRead } := by
  simp only [State.inRead, readChar_nil h]

theorem inRead_cons {s : State} {b : Byte} {rest : List Byte} (h : s.input = b :: rest) :
    s.inRead = { s with
      regs := s.regs.set 0 (zext16 b), input := rest, consumed := s.consumed ++ [b]
      output := s.output ++ [b], activity := .boundary } := by
  simp only [State.inRead, readChar_cons h]
  rfl

/-- Everything the read of GETC can do. -/
theorem getcRead_cases (s : State) :
    (s.input = [] ∧ s.getcRead = { s with activity := .getcRead }) ∨
    ∃ b rest, s.input = b :: rest ∧ s.getcRead = { s with
      regs := s.regs.set 0 (zext16 b), input := rest, consumed := s.consumed ++ [b]
      activity := .boundary } := by
  rcases hi : s.input with _ | ⟨b, rest⟩
  · exact .inl ⟨rfl, by simp only [getcRead_nil hi, hi]⟩
  · exact .inr ⟨b, rest, rfl, getcRead_cons hi⟩

/-- Everything the read of IN can do. -/
theorem inRead_cases (s : State) :
    (s.input = [] ∧ s.inRead = { s with activity := .inRead }) ∨
    ∃ b rest, s.input = b :: rest ∧ s.inRead = { s with
      regs := s.regs.set 0 (zext16 b), input := rest, consumed := s.consumed ++ [b]
      output := s.output ++ [b], activity := .boundary } := by
  rcases hi : s.input with _ | ⟨b, rest⟩
  · exact .inl ⟨rfl, by simp only [inRead_nil hi, hi]⟩
  · exact .inr ⟨b, rest, rfl, inRead_cons hi⟩

/-! ### The scan of PUTS and PUTSP -/

theorem scan_zero (bytes : Word → List Byte) (more : Word → Activity) (a : Word) (s : State) :
    State.scan bytes more 0 a s = { s with activity := more a } := rfl

/-- The zero word ends the scan. -/
theorem scan_stop (bytes : Word → List Byte) (more : Word → Activity) (n : Nat) {a : Word}
    {s : State} (h : (s.memRead a).1 = 0) :
    State.scan bytes more (n + 1) a s = { (s.memRead a).2 with activity := .boundary } := by
  simp only [State.scan, State.scanWord, if_pos h]

/-- Another word is written and the scan goes on at the next address. -/
theorem scan_go (bytes : Word → List Byte) (more : Word → Activity) (n : Nat) {a : Word}
    {s : State} (h : (s.memRead a).1 ≠ 0) :
    State.scan bytes more (n + 1) a s =
      State.scan bytes more n (a + 1) ((s.memRead a).2.emit (bytes (s.memRead a).1)) := by
  simp only [State.scan, State.scanWord, if_neg h]

/-- What every scan keeps: a property of states that a read and an emission keep, and that says
nothing of the activity, holds after it. -/
theorem scan_keeps {P : State → Prop} (bytes : Word → List Byte) (more : Word → Activity)
    (hread : ∀ s a, P s → P (s.memRead a).2) (hemit : ∀ s bs, P s → P (s.emit bs))
    (hact : ∀ s x, P s → P { s with activity := x }) (n : Nat) (a : Word) (s : State) (h : P s) :
    P (State.scan bytes more n a s) := by
  induction n generalizing a s with
  | zero => exact hact s _ h
  | succ n ih =>
    by_cases hz : (s.memRead a).1 = 0
    · rw [scan_stop _ _ _ hz]
      exact hact _ _ (hread s a h)
    · rw [scan_go _ _ _ hz]
      exact ih _ _ (hemit _ _ (hread s a h))

/-- A field that neither a read, nor an emission, nor the activity touches is the same after a scan. -/
theorem scan_field {α : Type} (f : State → α) (hpoll : ∀ s : State, f s.poll = f s)
    (hemit : ∀ (s : State) bs, f (s.emit bs) = f s)
    (hact : ∀ (s : State) x, f { s with activity := x } = f s)
    (bytes : Word → List Byte) (more : Word → Activity) (n : Nat) (a : Word) (s : State) :
    f (State.scan bytes more n a s) = f s :=
  scan_keeps (P := fun t => f t = f s) bytes more
    (fun t b h => (memRead_field f hpoll t b).trans h) (fun t bs h => (hemit t bs).trans h)
    (fun t x h => (hact t x).trans h) n a s rfl

/-- A scan keeps the canonical form of memory. -/
theorem scan_wf (bytes : Word → List Byte) (more : Word → Activity) (n : Nat) (a : Word)
    {s : State} (h : Memory.wf s.mem) : Memory.wf (State.scan bytes more n a s).mem :=
  scan_keeps (P := fun t => Memory.wf t.mem) bytes more (fun _ b hw => memRead_wf hw b)
    (fun _ _ hw => hw) (fun _ _ hw => hw) n a s h

/-- A scan is over or unfinished; it leaves no other activity. -/
theorem scan_activity (bytes : Word → List Byte) (more : Word → Activity) (n : Nat) (a : Word)
    (s : State) : (State.scan bytes more n a s).activity = .boundary ∨
      ∃ b, (State.scan bytes more n a s).activity = more b := by
  induction n generalizing a s with
  | zero => exact .inr ⟨a, rfl⟩
  | succ n ih =>
    by_cases hz : (s.memRead a).1 = 0
    · rw [scan_stop _ _ _ hz]
      exact .inl rfl
    · rw [scan_go _ _ _ hz]
      exact ih _ _

/-! ### The dispatcher -/

/-- A well-formed TRAP names no routine and does nothing (44_trap.md R178). -/
theorem dispatch_of_wf {v : BitVec 8} (h : (Instr.trap v).wf = true) (s : State) :
    s.dispatch v = s := by
  have hv : routineOf v = none := (routineOf_eq_none v).2 h
  simp only [State.dispatch, hv]

/-! ### The step -/

/-- Everything a step that answers a next state can be. -/
theorem step_cases {s t : State} (h : step s = .next t) :
    s.ended = none ∧
    ((s.hostActs.activity = .boundary ∧ s.hostActs.cancelRequested = true ∧
        t = s.hostActs.takeCancel) ∨
     (s.hostActs.activity = .boundary ∧ s.hostActs.cancelRequested = false ∧
        exec (decode s.hostActs.fetch.1) s.hostActs.fetch.2 = .next t) ∨
     (s.hostActs.activity ≠ .boundary ∧ t = s.hostActs.resume)) := by
  unfold step at h
  cases he : s.ended with
  | some o => simp [he] at h
  | none =>
    refine ⟨rfl, ?_⟩
    simp only [he] at h
    split at h
    · rename_i hb
      unfold stepAtBoundary at h
      split at h
      · rename_i hc
        exact .inl ⟨hb, hc, by simpa using h.symm⟩
      · rename_i hc
        exact .inr (.inl ⟨hb, by simpa using hc, h⟩)
    · rename_i hb
      exact .inr (.inr ⟨hb, by simpa using h.symm⟩)

/-- No step is taken from a run that has ended (60_exceptions.md R210). -/
theorem step_of_ended {s : State} {o : RunOutcome} (h : s.ended = some o) :
    step s = .fault (.runEnded o) := by
  simp only [step, h]

end Sys2Proof.Machine
end

