-- ==== Sys2Proof/Tests/Slice0.lean ====
section
/-!
SUPPORT. Tests. Decoding: a word for every constructor, written out bit by bit from 30_encoding.md
R94. Execution: vectors of 95_test_vectors.md (V<n>), one step each. Witnesses: for every statement
with hypotheses, a state and operands that meet them, at the edges of their ranges.
-/

namespace Sys2Proof.Tests

open Sys2Proof.Machine Sys2Proof.Claims

/-! ## Well-formedness: an ill-formed term for each check -/

theorem test_wf_refuses_jmp_through_r7 : (Instr.jmp 7).wf = false := by decide

theorem test_wf_refuses_trap_with_a_named_vector :
    (Instr.trap 0x20).wf = false ∧ (Instr.trap 0x25).wf = false := by decide

theorem test_wf_accepts_the_neighbours :
    (Instr.jmp 6).wf = true ∧ (Instr.trap 0x1F).wf = true ∧ (Instr.trap 0x26).wf = true := by decide

/-! ## Decoding (30_encoding.md R94): opcode, fields, ignored bits from left to right -/

theorem test_decode_addReg : decode 0b0001_010_011_0_11_101 = .addReg 2 3 5 := by decide

theorem test_decode_addImm : decode 0b0001_111_000_1_10000 = .addImm 7 0 0b10000 := by decide

theorem test_decode_andReg : decode 0b0101_100_001_0_00_110 = .andReg 4 1 6 := by decide

theorem test_decode_andImm : decode 0b0101_000_111_1_01111 = .andImm 0 7 0b01111 := by decide

theorem test_decode_not : decode 0b1001_101_010_110011 = .not 5 2 := by decide

theorem test_decode_br : decode 0b0000_1_0_1_100000001 = .br 0b101 0b100000001 := by decide

theorem test_decode_jmp : decode 0b1100_101_010_111111 = .jmp 2 := by decide

theorem test_decode_ret : decode 0b1100_010_111_000001 = .ret := by decide

theorem test_decode_jsr : decode 0b0100_1_10000000001 = .jsr 0b10000000001 := by decide

theorem test_decode_jsrr : decode 0b0100_0_11_110_010101 = .jsrr 6 := by decide

theorem test_decode_ld : decode 0b0010_011_100000010 = .ld 3 0b100000010 := by decide

theorem test_decode_ldi : decode 0b1010_110_011111111 = .ldi 6 0b011111111 := by decide

theorem test_decode_ldr : decode 0b0110_001_100_100001 = .ldr 1 4 0b100001 := by decide

theorem test_decode_lea : decode 0b1110_111_000000001 = .lea 7 1 := by decide

theorem test_decode_st : decode 0b0011_010_111111110 = .st 2 0b111111110 := by decide

theorem test_decode_sti : decode 0b1011_001_010101010 = .sti 1 0b010101010 := by decide

theorem test_decode_str : decode 0b0111_110_011_000111 = .str 6 3 0b000111 := by decide

theorem test_decode_trap : decode 0b1111_1010_00011111 = .trap 0x1F := by decide

theorem test_decode_getc : decode 0b1111_0000_00100000 = .getc := by decide

theorem test_decode_out : decode 0b1111_0001_00100001 = .out := by decide

theorem test_decode_puts : decode 0b1111_0010_00100010 = .puts := by decide

theorem test_decode_inp : decode 0b1111_0100_00100011 = .inp := by decide

theorem test_decode_putsp : decode 0b1111_1000_00100100 = .putsp := by decide

theorem test_decode_halt : decode 0b1111_1111_00100101 = .halt := by decide

theorem test_decode_rti : decode 0b1000_111100001010 = .rti 0b111100001010 := by decide

theorem test_decode_res : decode 0b1101_000000000001 = .res 1 := by decide

/-- Encoding clears the ignored bits and keeps every other one. -/
theorem test_encode_jsrr : encode (.jsrr 6) = 0b0100_0_00_110_000000 := by decide

theorem test_table_word_beyond_its_row : decodeTableWord 8 0x1283 = none := by decide

/-! ## Execution: one step from a small state -/

/-- The reset state with its PC and its memory replaced. -/
def start (pc : Word) (cells : Memory) : State := { State.reset with pc := pc, mem := cells }

/-- The state after one step, where there is one. -/
def after (s : State) : State :=
  match step s with
  | .next t => t
  | .fault _ => s
  | .refused _ => s

/-- V4. -/
theorem test_addReg : let t := after (((start 0x3000 [(0x3000, 0x1D05)]).setReg 4 0x1234).setReg 5 0x4321);
    t.reg 6 = 0x5555 ∧ t.cond = flagP ∧ t.pc = 0x3001 := by decide

/-- V6: the ignored bits 4:3 are set. -/
theorem test_addReg_ignored_bits :
    let t := after (((start 0x3000 [(0x3000, 0x1298)]).setReg 2 2).setReg 0 3);
    t.reg 1 = 5 ∧ t.cond = flagP := by decide

/-- V1: signed overflow without a trap. -/
theorem test_addImm_overflow : let t := after ((start 0x3000 [(0x3000, 0x1461)]).setReg 1 0x7FFF);
    t.reg 2 = 0x8000 ∧ t.cond = flagN := by decide

/-- V3: a negative immediate. -/
theorem test_addImm_negative : let t := after ((start 0x3000 [(0x3000, 0x16F0)]).setReg 3 5);
    t.reg 3 = 0xFFF5 ∧ t.cond = flagN := by decide

/-- V10. -/
theorem test_andReg :
    let t := after (((start 0x3000 [(0x3000, 0x5642)]).setReg 1 0xAAAA).setReg 2 0x5555);
    t.reg 3 = 0 ∧ t.cond = flagZ := by decide

/-- V9: the immediate -1. -/
theorem test_andImm_all_ones : let t := after ((start 0x3000 [(0x3000, 0x547F)]).setReg 1 0x8F0F);
    t.reg 2 = 0x8F0F ∧ t.cond = flagN := by decide

/-- V11. -/
theorem test_andImm : let t := after ((start 0x3000 [(0x3000, 0x526F)]).setReg 1 0x00FF);
    t.reg 1 = 0x000F ∧ t.cond = flagP := by decide

/-- V15: the ignored bits 5:0 are clear. -/
theorem test_not : let t := after ((start 0x3000 [(0x3000, 0x9040)]).setReg 1 0x1234);
    t.reg 0 = 0xEDCB ∧ t.cond = flagN := by decide

/-- V16: no flag is set at reset, so BRnzp is not taken. -/
theorem test_br_at_reset : (after (start 0x3000 [(0x3000, 0x0E05)])).pc = 0x3001 := by decide

/-- V21: the incremented PC has wrapped. -/
theorem test_br_wraps :
    (after { start 0xFFFF [(0xFFFF, 0x0202)] with cond := flagP }).pc = 0x0002 := by decide

/-- V22. -/
theorem test_jmp : (after ((start 0x3000 [(0x3000, 0xC0C0)]).setReg 3 0x1234)).pc = 0x1234 := by
  decide

/-- V24. -/
theorem test_ret : (after ((start 0x3000 [(0x3000, 0xCFFF)]).setReg 7 0x0042)).pc = 0x0042 := by
  decide

/-- V25. -/
theorem test_jsr : let t := after (start 0x3000 [(0x3000, 0x4C00)]);
    t.pc = 0x2C01 ∧ t.reg 7 = 0x3001 := by decide

/-- V27. -/
theorem test_jsr_wraps : let t := after (start 0xFFFF [(0xFFFF, 0x4801)]);
    t.pc = 0x0001 ∧ t.reg 7 = 0 := by decide

/-- V30. -/
theorem test_jsrr : let t := after ((start 0x3000 [(0x3000, 0x46BF)]).setReg 2 0x4000);
    t.pc = 0x4000 ∧ t.reg 7 = 0x3001 := by decide

/-- V29: BaseR is read after the write of R7. -/
theorem test_jsrr_through_r7 : let t := after ((start 0x3000 [(0x3000, 0x41C0)]).setReg 7 0x5000);
    t.pc = 0x3001 ∧ t.reg 7 = 0x3001 := by decide

/-- V31. -/
theorem test_ld : let t := after (start 0x3000 [(0x3000, 0x2402), (0x3003, 0x8001)]);
    t.reg 2 = 0x8001 ∧ t.cond = flagN := by decide

/-- V32: the load reads KBSR with a byte available. -/
theorem test_ld_polls : let t := after { start 0xFDFF [(0xFDFF, 0x2000)] with input := [0x61] };
    t.reg 0 = 0x8000 ∧ t.cell 0xFE02 = 0x0061 ∧ t.input = [] := by decide

/-- V36: pointer and target differ. -/
theorem test_ldi : let t := after (start 0x3000 [(0x3000, 0xA201), (0x3002, 0x4000)]);
    t.reg 1 = 0 ∧ t.cond = flagZ := by decide

/-- V35: the pointer cell is KBSR. -/
theorem test_ldi_pointer_polls :
    let t := after { start 0xFDFF [(0x8000, 0x1111), (0xFDFF, 0xA200)] with input := [0x7A] };
    t.reg 1 = 0x1111 ∧ t.cond = flagP ∧ t.cell 0xFE02 = 0x007A := by decide

/-- V37: the address wraps, and the destination is the base. -/
theorem test_ldr_wraps :
    let t := after ((start 0x3000 [(0, 0x0777), (0x3000, 0x6241)]).setReg 1 0xFFFF);
    t.reg 1 = 0x0777 ∧ t.cond = flagP := by decide

/-- V39. -/
theorem test_ldr_negative :
    let t := after ((start 0x3000 [(0x3000, 0x64E0), (0x3FE0, 1)]).setReg 3 0x4000);
    t.reg 2 = 1 := by decide

/-- V41: flags from the address. -/
theorem test_lea_flags : let t := after (start 0x7FFF [(0x7FFF, 0xE200)]);
    t.reg 1 = 0x8000 ∧ t.cond = flagN := by decide

/-- V43: LEA does not read, so it does not poll. -/
theorem test_lea_does_not_poll :
    let t := after { start 0xFDFF [(0xFDFF, 0xE000)] with input := [0x71] };
    t.reg 0 = 0xFE00 ∧ t.input = [0x71] := by decide

/-- V45: a store to KBSR only stores. -/
theorem test_st_to_kbsr :
    let t := after (({ start 0xFDFF [(0xFDFF, 0x3000)] with input := [0x61] } : State).setReg 0 0x1234);
    t.cell 0xFE00 = 0x1234 ∧ t.input = [0x61] := by decide

/-- V46. -/
theorem test_sti :
    let t := after ((start 0x3000 [(0x3000, 0xB800), (0x3001, 0x5000)]).setReg 4 0x00AA);
    t.cell 0x5000 = 0x00AA ∧ t.cell 0x3001 = 0x5000 := by decide

/-- V47: the pointer cell is the target. -/
theorem test_sti_through_itself :
    let t := after ((start 0x3000 [(0x3000, 0xB200), (0x3001, 0x3001)]).setReg 1 0xABCD);
    t.cell 0x3001 = 0xABCD := by decide

/-- V48. -/
theorem test_str_base_is_source :
    (after ((start 0x3000 [(0x3000, 0x7B60)]).setReg 5 0x4000)).cell 0x3FE0 = 0x4000 := by decide

/-- V49. -/
theorem test_str_wraps :
    (after (((start 0x3000 [(0x3000, 0x7441)]).setReg 1 0xFFFF).setReg 2 0xBB)).cell 0 = 0xBB := by
  decide

/-- V62. -/
theorem test_trap_other_vector :
    after ((start 0x3000 [(0x3000, 0xF026)]).setReg 0 0x41) =
      (start 0x3001 [(0x3000, 0xF026)]).setReg 0 0x41 := by decide

/-- V51: zero extension. -/
theorem test_getc : let t := after { start 0x3000 [(0x3000, 0xF020)] with input := [0xE9] };
    t.reg 0 = 0x00E9 ∧ t.output = [] ∧ t.cond = 0 ∧ t.consumed = [0xE9] := by decide

/-- After V64: with no input the blocked step ends CANCELLED on a request (R215). -/
theorem test_getc_blocked_is_cancelled :
    let t := after { start 0x3001 [] with activity := .getcRead, host := ⟨[⟨[], true⟩], .cycle []⟩ };
    t.outcome = some .cancelled ∧ t.pc = 0x3001 ∧ t.reg 0 = 0 := by decide

/-- V52. -/
theorem test_out : let t := after ((start 0x3000 [(0x3000, 0xF021)]).setReg 0 0x1241);
    t.output = [0x41] ∧ t.reg 7 = 0 := by decide

/-- V55: high bytes are ignored, and 0x0100 is not a terminator. -/
theorem test_puts :
    (after ((start 0x3000 [(0x3000, 0xF022), (0x4000, 0x0141), (0x4001, 0x0100)]).setReg 0 0x4000)).output =
      [0x41, 0x00] := by decide

/-- V56: the scan wraps. -/
theorem test_puts_wraps :
    (after ((start 0x3000 [(0, 0x42), (0x3000, 0xF022), (0xFFFF, 0x41)]).setReg 0 0xFFFF)).output =
      [0x41, 0x42] := by decide

/-- V58. -/
theorem test_inp : let t := after { start 0x3000 [(0x3000, 0xF023)] with input := [0x79] };
    t.reg 0 = 0x0079 ∧ t.output = Config.inPrompt ++ [0x79] :=
  ⟨by decide, rfl⟩

/-- V59. -/
theorem test_putsp :
    (after ((start 0x3000 [(0x3000, 0xF024), (0x4000, 0x6548), (0x4001, 0x79)]).setReg 0 0x4000)).output =
      [0x48, 0x65, 0x79] := by decide

/-- V60: a zero low byte is written. -/
theorem test_putsp_zero_low_byte :
    (after ((start 0x3000 [(0x3000, 0xF024), (0x4000, 0x4100)]).setReg 0 0x4000)).output =
      [0x00, 0x41] := by decide

/-- V61, example E1. -/
theorem test_halt : let t := after (start 0x3000 [(0x3000, 0xF025)]);
    t.engine = .halted ∧ t.pc = 0x3001 ∧ t.output = Config.haltMarker :=
  ⟨by decide, by decide, rfl⟩

/-- V66. -/
theorem test_rti : (after (start 0x3000 [(0x3000, 0x8FFF)])).outcome =
    some (.fatal 0x8 0x8FFF 0x3001) := by decide

/-- V70: the fetch polls, and the word it reads is RTI. -/
theorem test_rti_fetched_from_kbsr : let t := after { start 0xFE00 [] with input := [0x78] };
    t.outcome = some (.fatal 0x8 0x8000 0xFE01) ∧ t.cell 0xFE02 = 0x0078 := by decide

/-- V68. -/
theorem test_res : (after (start 0x3005 [(0x3005, 0xDFFF)])).outcome =
    some (.fatal 0xD 0xDFFF 0x3006) := by decide

/-- V69. -/
theorem test_fetch_from_kbsr_without_input :
    let t := after (start 0xFE00 []); t.pc = 0xFE01 ∧ t.outcome = none := by decide

/-- E1: the image of origin 0x3000 and word 0xF025. -/
theorem test_boot_e1 :
    boot (some [0x30, 0x00, 0xF0, 0x25]) = .ok (start 0x3000 [(0x3000, 0xF025)]) := rfl

/-- R242: the load stops after cell 0xFFFF, and an odd byte is ignored. -/
theorem test_boot_top_of_memory :
    boot (some [0xFF, 0xFF, 0x12, 0x34, 0x56, 0x78, 0x9A]) =
      .ok (start 0x3000 [(0xFFFF, 0x1234)]) := rfl

/-- A word placed with `withFetchWord` is the one the next step runs. -/
theorem test_withFetchWord : (after (State.reset.withFetchWord 16 0xE005)).reg 0 = 0x3006 := by
  decide

/-! ## Witnesses -/

theorem witness_DecodeUndoesEncode :
    (Instr.jmp 6).wf = true ∧ (Instr.trap 0x1F).wf = true ∧ (Instr.trap 0x26).wf = true ∧
      (Instr.res 0xFFF).wf = true := by decide

theorem witness_IgnoredBitsChangeNothing :
    (0x1298 : Word) &&& ~~~ ignoredBits (decode 0x1298) =
      0x1280 &&& ~~~ ignoredBits (decode 0x1298) := by decide

theorem witness_SignExtensionFillsTheHigherBits :
    5 ∈ [5, 6, 9, 11] ∧ 11 ∈ [5, 6, 9, 11] ∧ (15 < 16 ∧ ¬ 15 < 5) ∧ (4 < 16 ∧ 4 < 5) ∧
      (0b10000 : BitVec 5).getLsbD (5 - 1) = true ∧ (0b01111 : BitVec 5).getLsbD (5 - 1) = false := by
  decide

theorem witness_FlagSettersSetTheFlagOfTheirDestination :
    destOf (.lea 7 0) = some 7 ∧ destOf (.addReg 0 1 2) = some 0 := by decide

theorem witness_OnlyBranchesReadCond :
    (∀ nzp off, Instr.halt ≠ .br nzp off) ∧ destOf .halt = none ∧
      (∀ nzp off, Instr.ld 7 0 ≠ .br nzp off) ∧ destOf (.ld 7 0) ≠ none :=
  ⟨(fun _ _ h => nomatch h), rfl, (fun _ _ h => nomatch h), by decide⟩

theorem witness_ComputedAddressesWrap : 9 ∈ [9, 11] ∧ 11 ∈ [9, 11] := by decide

/-- A state whose next PC-relative read is KBSR, with and without input. -/
def atKbsr (input : List Byte) : State := { start 0xFE00 [(0x8000, 0x1111)] with input := input }

theorem witness_LoadsWriteTheWordRead :
    Memory.wf (atKbsr []).mem ∧ target (atKbsr []).pc (0 : BitVec 9) = kbsrAddr ∧
      Memory.wf (atKbsr [0x61]).mem ∧ target (atKbsr []).pc (1 : BitVec 9) ≠ kbsrAddr := by decide

theorem witness_LdiReadsThePointerThenTheValue :
    Memory.wf (atKbsr [0x61]).mem ∧ target (atKbsr [0x61]).pc (0 : BitVec 9) = kbsrAddr := by decide

theorem witness_StoresWriteOneCell :
    Memory.wf (start 0xFFFF [(0xFFFF, 1)]).mem ∧
      target (start 0xFFFF [(0xFFFF, 1)]).pc (1 : BitVec 9) = 0 := by decide

theorem witness_StiStoresThroughItsPointer :
    Memory.wf (start 0xFE00 []).mem ∧ target (start 0xFE00 []).pc (0 : BitVec 9) = kbsrAddr := by
  decide

theorem witness_OrdinaryAddressesReadAsLastWritten :
    Memory.wf State.reset.mem ∧ (0xFFFF : Word) ≠ kbsrAddr ∧ (0xFFFF : Word) ≠ 0 ∧
      boot (some (0x30 :: 0x00 :: [0xF0, 0x25])) = .ok (start 0x3000 [(0x3000, 0xF025)]) ∧
      (0x3000 : Word) ≠ kbsrAddr ∧
      (0x3000 : Word).toNat = (0x30 : Byte).toNat * 256 + (0x00 : Byte).toNat + 0 ∧
      ([0xF0, 0x25] : List Byte)[2 * 0]? = some 0xF0 ∧
      ([0xF0, 0x25] : List Byte)[2 * 0 + 1]? = some 0x25 :=
  ⟨by decide, by decide, by decide, rfl, by decide, by decide, by decide, by decide⟩

theorem witness_WritesOnlyStore : Memory.wf (start 0 [(0xFE00, 1)]).mem := by decide

theorem witness_KbsrReadsPollTheKeyboard :
    Memory.wf (atKbsr []).mem ∧ (atKbsr []).input = [] ∧ Memory.wf (atKbsr [0x61]).mem ∧
      (atKbsr [0x61]).input = [0x61] := by decide

/-- The address of the next word in R1, and in the cell after it as STI's pointer. -/
def selfModifying : State := (start 0xFFFF [(0x0000, 0xFFFF)]).setReg 1 0xFFFF

theorem witness_StoreIsSeenByTheNextFetch :
    Memory.wf selfModifying.mem ∧ selfModifying.pc ≠ kbsrAddr ∧
      target selfModifying.pc (0 : BitVec 9) = selfModifying.pc ∧
      target (selfModifying.reg 1) (0 : BitVec 6) = selfModifying.pc ∧
      (selfModifying.memRead (target selfModifying.pc (1 : BitVec 9))).1 = selfModifying.pc := by
  decide

theorem witness_StoredKbsrIsNeverObserved :
    SameButKbsr State.reset (State.reset.setCell kbsrAddr 0x1234) ∧
      (∃ s', step State.reset = .next s') ∧
      SameButKbsr State.reset.haltEngine (State.reset.haltEngine.setCell kbsrAddr 0x1234) ∧
      step State.reset.haltEngine = .fault (.runEnded .halted) :=
  ⟨⟨fun a h => cell_setCell_other _ _ h, by decide, by decide, rfl, rfl, rfl,
      ⟨rfl, rfl, rfl, rfl, rfl, rfl, rfl, rfl⟩⟩, ⟨_, rfl⟩,
    ⟨fun a h => cell_setCell_other _ _ h, by decide, by decide, rfl, rfl, rfl,
      ⟨rfl, rfl, rfl, rfl, rfl, rfl, rfl, rfl⟩⟩, rfl⟩

theorem witness_CanonicalMemoriesWithEqualCellsAreEqual :
    Memory.wf (start 0 [(0, 1), (65535, 2)]).mem ∧
      Memory.wf (start 1 [(0, 1), (65535, 2)]).mem ∧
      ∀ a, (start 1 [(0, 1), (65535, 2)]).cell a = (start 0 [(0, 1), (65535, 2)]).cell a :=
  ⟨by decide, by decide, fun _ => rfl⟩

theorem witness_TrapRunsTheRoutineOfItsVector :
    (0x1F : BitVec 8).toNat < 0x20 ∧ 0x25 < (0x26 : BitVec 8).toNat := by decide

theorem witness_OtherTrapVectorsAreNoOps :
    ((0x00 : BitVec 8).toNat < 0x20 ∨ 0x25 < (0x00 : BitVec 8).toNat) ∧
      ((0xFF : BitVec 8).toNat < 0x20 ∨ 0x25 < (0xFF : BitVec 8).toNat) := by decide

theorem witness_GetcStoresTheNextByte : (atKbsr [0xFF, 0x00]).input = 0xFF :: [0x00] := by decide

theorem witness_InPromptsEchoesAndStores : (atKbsr [0x79]).input = 0x79 :: [] := by decide

/-- A packed string "Hey" of two words that wraps from 0xFFFF to 0x0000. -/
def stringState : State :=
  (start 0x3001 [(0x0000, 0x0079), (0xFFFF, 0x6548)]).setReg 0 0xFFFF

theorem stringState_holds_a_string : StringAt stringState 0xFFFF [0x6548, 0x0079] := by
  refine ⟨by decide, ?_, by decide, ?_⟩
  · decide
  · decide

theorem witness_PutsAndPutspWriteTheString :
    StringAt stringState (stringState.reg 0) [0x6548, 0x0079] ∧
      StringAt State.reset (State.reset.reg 0) [] :=
  ⟨stringState_holds_a_string, by refine ⟨by decide, ?_, by decide, ?_⟩ <;> decide⟩

theorem witness_ScanOfKbsrPolls :
    Memory.wf ((atKbsr []).setReg 0 kbsrAddr).mem ∧
      ((atKbsr []).setReg 0 kbsrAddr).reg 0 = kbsrAddr ∧
      ((atKbsr []).setReg 0 kbsrAddr).input = [] ∧
      ((atKbsr [0x61]).setReg 0 kbsrAddr).input = 0x61 :: [] ∧
      ((atKbsr [0x61]).setReg 0 kbsrAddr).cell (kbsrAddr + 1) = 0 := by decide

/-- Memory with every cell at 1. -/
def fullMemory : Memory := (List.range' 0 65536).map (fun a => (a, 1))

theorem fullMemory_wf : Memory.wf fullMemory := by
  refine ⟨?_, fun c hc => ?_⟩
  · exact List.pairwise_map.2 (List.pairwise_lt_range' (s := 0) (n := 65536))
  · obtain ⟨a, ha, rfl⟩ := List.mem_map.1 hc
    exact ⟨by simpa using List.mem_range'_1.1 ha, by simp⟩

theorem read_ones (n i a : Nat) (h : i ≤ a) (h' : a < i + n) :
    Memory.read ((List.range' i n).map (fun b => (b, (1 : Word)))) a = 1 := by
  induction n generalizing i with
  | zero => omega
  | succ n ih =>
    rw [List.range'_succ, List.map_cons, read_cons]
    split
    · rfl
    · exact ih (i + 1) (by omega) (by omega)

/-- The memory of a run whose scan meets no zero word: LD R0 from the third word, a trap word, the
address after KBSR, and every other cell at 1. -/
def endlessMemory (trapWord : Word) : Memory :=
  Memory.write (Memory.write (Memory.write fullMemory 0x3000 0x2001) 0x3001 trapWord) 0x3002 0xFE01

theorem endlessMemory_wf (w : Word) : Memory.wf (endlessMemory w) :=
  write_wf (write_wf (write_wf fullMemory_wf (by decide) _) (by decide) _) (by decide) _

theorem read_endlessMemory {w : Word} (hw : w ≠ 0) {a : Nat} (ha : a < 65536) :
    Memory.read (endlessMemory w) a ≠ 0 := by
  have h0 : Memory.read fullMemory a = 1 := read_ones 65536 0 a (Nat.zero_le a) (by omega)
  have h1 := write_wf fullMemory_wf (show 0x3000 < 65536 by decide) 0x2001
  have h2 := write_wf h1 (show 0x3001 < 65536 by decide) w
  unfold endlessMemory
  by_cases e2 : a = 0x3002
  · rw [e2, read_write_same h2]
    decide
  rw [read_write_other _ _ e2]
  by_cases e1 : a = 0x3001
  · rw [e1, read_write_same h1]
    exact hw
  rw [read_write_other _ _ e1]
  by_cases e0 : a = 0x3000
  · rw [e0, read_write_same fullMemory_wf]
    decide
  rw [read_write_other _ _ e0, h0]
  decide

/-- The state before the trap word of that run, after its LD, with what the host does from there on. -/
def endless (trapWord : Word) (host : HostSchedule) : State :=
  { (start 0x3001 (endlessMemory trapWord)).setReg 0 0xFE01 with cond := flagN, host := host }

/-- No cell holds a zero word. -/
structure NoZero (s : State) : Prop where
  wf : Memory.wf s.mem
  cells : ∀ a, s.cell a ≠ 0

/-- Where no cell is zero and none read is KBSR, the loop of the rule and the scan both go on. -/
theorem scan_over_nonzero (bytes : Word → List Byte) (more : Word → Activity) (m n : Nat) (a : Word)
    (s : State) (hs : NoZero s) (ha : ∀ k, k < n → a + BitVec.ofNat 16 k ≠ kbsrAddr) :
    ∃ out, ScanRun bytes n a s (a + BitVec.ofNat 16 n) { s with output := out } ∧
      State.scan bytes more (n + m) a s =
        State.scan bytes more m (a + BitVec.ofNat 16 n) { s with output := out } := by
  induction n generalizing a s with
  | zero => exact ⟨s.output, by simp [ScanRun]⟩
  | succ n ih =>
    have h0 : a ≠ kbsrAddr := by simpa using ha 0 (by omega)
    have hadd : ∀ k, a + BitVec.ofNat 16 (k + 1) = a + 1 + BitVec.ofNat 16 k := fun k => by
      rw [BitVec.add_assoc, Nat.add_comm, BitVec.ofNat_add]
      rfl
    have hr := memRead_other s h0
    obtain ⟨out, h, h'⟩ := ih (a + 1) (s.emit (bytes (s.cell a))) ⟨hs.wf, hs.cells⟩
      fun k hk => by rw [← hadd]; exact ha (k + 1) (by omega)
    refine ⟨out, ⟨s.cell a, s, .inl ⟨h0, rfl, rfl⟩, hs.wf, hs.cells a, ?_⟩, ?_⟩
    · rw [hadd]
      exact h
    · rw [Nat.add_right_comm, scan_go _ _ _ (by rw [hr]; exact hs.cells a), hr, hadd]
      exact h'

theorem scanRun_snoc (bytes : Word → List Byte) (n : Nat) (a b v : Word) (s t u : State)
    (h : ScanRun bytes n a s b t) (hr : ReadOf t b v u) (hw : Memory.wf u.mem) (hv : v ≠ 0) :
    ScanRun bytes (n + 1) a s (b + 1) { u with output := u.output ++ bytes v } := by
  induction n generalizing a s with
  | zero =>
    obtain ⟨rfl, rfl⟩ := h
    exact ⟨v, u, hr, hw, hv, rfl, rfl⟩
  | succ n ih =>
    obtain ⟨x, y, h1, h2, h3, h4⟩ := h
    exact ⟨x, y, h1, h2, h3, ih _ _ h4⟩

/-- From the cell after KBSR, 65535 words are read before KBSR is. -/
theorem scan_to_kbsr (bytes : Word → List Byte) (more : Word → Activity) (s : State)
    (hs : NoZero s) : ∃ out, ScanRun bytes 65535 0xFE01 s kbsrAddr { s with output := out } ∧
      State.scan bytes more scanBatch 0xFE01 s =
        State.scan bytes more 1 kbsrAddr { s with output := out } :=
  scan_over_nonzero bytes more 1 65535 0xFE01 s hs fun k hk e => by
    have := congrArg BitVec.toNat e
    simp [kbsrAddr] at this
    omega

/-- A poll that finds a byte, as the read of KBSR that the statements speak of. -/
theorem readOf_poll {s : State} {c : Byte} {rest : List Byte} (hw : Memory.wf s.mem)
    (h : s.input = c :: rest) : ReadOf s kbsrAddr 0x8000 s.poll := by
  have hk : s.poll.cell kbsrAddr = 0x8000 := by
    rw [poll_kbsr hw]
    exact if_neg (by simp [h])
  refine .inr (.inr ⟨rfl, c, rest, h, rfl, hk, ?_, fun b h1 h2 => poll_cell_other _ h1 h2, ?_, ?_,
    ⟨fun r => reg_congr (poll_regs _) r, poll_pc _, poll_cond _, poll_engine _, poll_outcome _,
      poll_activity _, poll_output _, poll_cancelRequested _, poll_host _⟩⟩)
  · rw [poll_cons h, cell_setCell_other _ _ (by decide), cell_setCell_same (by exact hw)]
    simp only [zext16, BitVec.toNat_setWidth]
    omega
  · rw [poll_cons h]
    rfl
  · rw [poll_cons h]
    rfl

/-- With a byte available, 65536 words are read without a zero one and the scan is unfinished. -/
theorem scan_past_kbsr (bytes : Word → List Byte) (more : Word → Activity) (s : State) {c : Byte}
    {rest : List Byte} (hs : NoZero s) (h : s.input = c :: rest) :
    ∃ out, ScanRun bytes 65536 0xFE01 s 0xFE01 { s.poll with output := out } ∧
      State.scan bytes more scanBatch 0xFE01 s =
        { s.poll with output := out, activity := more 0xFE01 } := by
  obtain ⟨out, hrun, hscan⟩ := scan_to_kbsr bytes more s hs
  have hpoll : ({ s with output := out } : State).poll = { s.poll with output := out } := by
    rw [poll_cons h, poll_cons (s := { s with output := out }) h]
    rfl
  have hread := readOf_poll (s := { s with output := out }) hs.wf h
  have hk : ({ s with output := out } : State).poll.cell kbsrAddr = 0x8000 := by
    rw [poll_kbsr (by exact hs.wf)]
    exact if_neg (by simp [h])
  have h0 : (0x8000 : Word) ≠ 0 := by decide
  refine ⟨out ++ bytes 0x8000, ?_, ?_⟩
  · have := scanRun_snoc bytes 65535 _ _ _ _ _ _ hrun hread (poll_wf hs.wf) h0
    rw [hpoll] at this
    exact this
  · rw [hscan, scan_go _ _ _ (by rw [memRead_kbsr, hk]; exact h0), scan_zero, memRead_kbsr, hk, hpoll]
    rfl

/-- A poll that finds a non-zero byte leaves no zero word. -/
theorem noZero_poll {s : State} {c : Byte} {rest : List Byte} (hs : NoZero s)
    (h : s.input = c :: rest) (hc : zext16 c ≠ 0) : NoZero s.poll := by
  refine ⟨poll_wf hs.wf, fun a => ?_⟩
  have hw := setCell_wf (s := { s with input := rest, consumed := s.consumed ++ [c] }) hs.wf kbdrAddr
    (zext16 c)
  rw [poll_cons h]
  by_cases hk : a = kbsrAddr
  · rw [hk, cell_setCell_same hw]
    decide
  rw [cell_setCell_other _ _ hk]
  by_cases hd : a = kbdrAddr
  · rw [hd, cell_setCell_same (by exact hs.wf)]
    exact hc
  rw [cell_setCell_other _ _ hd]
  exact hs.cells a

theorem endless_noZero {w : Word} (hw : w ≠ 0) (s : State) (h : s.mem = endlessMemory w) :
    NoZero s :=
  ⟨h ▸ endlessMemory_wf w, fun a => by rw [State.cell, h]; exact read_endlessMemory hw a.isLt⟩

/-- Each clause: the scan that ends at once, at KBSR without input, and the one that does not end. -/
theorem witness_ScansFollowTheLoopOfTheirRule :
    (Memory.wf ((atKbsr []).setReg 0 kbsrAddr).mem ∧
      ReadOf ((atKbsr []).setReg 0 kbsrAddr) kbsrAddr 0 ((atKbsr []).setReg 0 kbsrAddr) ∧
      ScanRun putsOf 0 (((atKbsr []).setReg 0 kbsrAddr).reg 0) ((atKbsr []).setReg 0 kbsrAddr) kbsrAddr
        ((atKbsr []).setReg 0 kbsrAddr)) ∧
    ∃ s t u, Memory.wf s.mem ∧ ScanRun putsOf 65536 (s.reg 0) s 0xFE01 t ∧
      ScanRun putspOf 65536 (s.reg 0) s 0xFE01 u := by
  refine ⟨⟨by decide, .inr (.inl ⟨rfl, rfl, rfl, by decide, fun _ _ => rfl, rfl, rfl,
      ⟨fun _ => rfl, rfl, rfl, rfl, rfl, rfl, rfl, rfl, rfl⟩⟩), rfl, rfl⟩, ?_⟩
  have hs := endless_noZero (w := 0xF022) (by decide)
    { endless 0xF022 ⟨[], .cycle []⟩ with input := [0x61] } rfl
  obtain ⟨out, h, -⟩ := scan_past_kbsr putsOf .putsScan _ hs rfl
  obtain ⟨out', h', -⟩ := scan_past_kbsr putspOf .putspScan _ hs rfl
  exact ⟨_, _, _, hs.wf, h, h'⟩

theorem endless_cell (w : Word) (host : HostSchedule) : (endless w host).cell 0x3001 = w := by
  show Memory.read (endlessMemory w) 0x3001 = w
  unfold endlessMemory
  rw [read_write_other _ _ (by decide), read_write_same (write_wf fullMemory_wf (by decide) _)]

/-- What a step that runs the endless PUTS or PUTSP leaves: an unfinished scan, on a run, for every
later schedule of the host. -/
theorem step_endless (bytes : Word → List Byte) (more : Word → Activity) (w : Word) (i : Instr)
    (rest : List HostSlot) (later : HostLater) (hw : w ≠ 0) (hi : decode w = i)
    (hx : ∀ s : State, exec i s = .next (State.scan bytes more scanBatch (s.reg 0) s)) :
    ∃ s, step (endless w ⟨⟨[0x61], false⟩ :: rest, later⟩) = .next s ∧ MayStep s ∧ NoZero s ∧
      s.activity = more 0xFE01 ∧ s.input = [] ∧ s.host = ⟨rest, later⟩ := by
  let u : State := { endless w ⟨rest, later⟩ with input := [0x61], pc := 0x3002 }
  have hu : NoZero u := endless_noZero hw u rfl
  have hstep : step (endless w ⟨⟨[0x61], false⟩ :: rest, later⟩) = exec i u := by
    have hc : u.cell 0x3001 = w := endless_cell w ⟨rest, later⟩
    have hf : step (endless w ⟨⟨[0x61], false⟩ :: rest, later⟩) = exec (decode (u.cell 0x3001)) u := rfl
    rw [hf, hc, hi]
  obtain ⟨out, -, h⟩ := scan_past_kbsr bytes more u hu rfl
  have hz := noZero_poll hu (c := 0x61) rfl (by decide)
  have hin : u.poll.input = [] := by
    rw [poll_cons (b := 0x61) (rest := []) rfl]
    rfl
  refine ⟨_, hstep.trans ((hx u).trans (congrArg _ h)), ⟨poll_outcome u, poll_engine u⟩,
    ⟨hz.wf, hz.cells⟩, rfl, hin, poll_host u⟩

/-- What follows an unfinished scan: with a byte supplied it reads KBSR and is left unfinished again,
although a cancellation is requested; with none, KBSR ends it. -/
theorem resumed_scan (bytes : Word → List Byte) {s : State} (hs : NoZero s) (hi : s.input = []) :
    (s.host = ⟨[⟨[0x62], true⟩], .cycle []⟩ → s.hostActs.cancelRequested = true ∧
      ∃ t, ScanRun bytes 65536 0xFE01 s.hostActs 0xFE01 t) ∧
    (s.host = ⟨[], .cycle []⟩ → ∃ t u, ScanRun bytes 65535 0xFE01 s.hostActs kbsrAddr t ∧
      ReadOf t kbsrAddr 0 u ∧ Memory.wf u.mem) := by
  refine ⟨fun h => ?_, fun h => ?_⟩
  · have ha : s.hostActs = { s with
        input := s.input ++ [0x62], cancelRequested := s.cancelRequested || true, host := ⟨[], .cycle []⟩ } := by
      simp only [State.hostActs, h]; rfl
    obtain ⟨out, hrun, -⟩ := scan_past_kbsr bytes .putsScan s.hostActs (c := 0x62) (rest := [])
      (by rw [ha]; exact ⟨hs.wf, hs.cells⟩) (by rw [ha, hi]; rfl)
    exact ⟨by rw [ha]; simp, _, hrun⟩
  · have ha : s.hostActs = s := by
      simp only [State.hostActs, h, next_idle, List.append_nil, Bool.or_false]
      rw [← h]
    rw [ha]
    obtain ⟨out, hrun, -⟩ := scan_to_kbsr bytes .putsScan s hs
    refine ⟨_, { s.setCell kbsrAddr 0 with output := out }, hrun, .inr (.inl ⟨rfl, hi, rfl,
      cell_setCell_same hs.wf kbsrAddr 0, fun b hb => cell_setCell_other s 0 hb, hi, rfl,
      ⟨fun _ => rfl, rfl, rfl, rfl, rfl, rfl, rfl, rfl, rfl⟩⟩), setCell_wf hs.wf kbsrAddr 0⟩

/-- Each clause, in states that a step of a run leads to. -/
theorem witness_UnfinishedScansGoOn :
    (∃ r s t, step r = .next s ∧ MayStep s ∧ Memory.wf s.mem ∧ s.activity = .putsScan 0xFE01 ∧
      s.hostActs.cancelRequested = true ∧ ScanRun putsOf 65536 0xFE01 s.hostActs 0xFE01 t) ∧
    (∃ r s t, step r = .next s ∧ MayStep s ∧ Memory.wf s.mem ∧ s.activity = .putspScan 0xFE01 ∧
      s.hostActs.cancelRequested = true ∧ ScanRun putspOf 65536 0xFE01 s.hostActs 0xFE01 t) ∧
    (∃ r s t u, step r = .next s ∧ MayStep s ∧ Memory.wf s.mem ∧ s.activity = .putsScan 0xFE01 ∧
      ScanRun putsOf 65535 0xFE01 s.hostActs kbsrAddr t ∧ ReadOf t kbsrAddr 0 u ∧
      Memory.wf u.mem) ∧
    ∃ r s t u, step r = .next s ∧ MayStep s ∧ Memory.wf s.mem ∧ s.activity = .putspScan 0xFE01 ∧
      ScanRun putspOf 65535 0xFE01 s.hostActs kbsrAddr t ∧ ReadOf t kbsrAddr 0 u ∧
      Memory.wf u.mem := by
  have puts := fun rest => step_endless putsBytes .putsScan 0xF022 .puts rest (.cycle []) (by decide) (by decide)
    fun _ => rfl
  have putsp := fun rest => step_endless putspBytes .putspScan 0xF024 .putsp rest (.cycle []) (by decide)
    (by decide) fun _ => rfl
  refine ⟨?_, ?_, ?_, ?_⟩
  · obtain ⟨s, hx, hm, hz, ha, hi, hh⟩ := puts [⟨[0x62], true⟩]
    obtain ⟨hc, t, ht⟩ := (resumed_scan putsOf hz hi).1 hh
    exact ⟨_, s, t, hx, hm, hz.wf, ha, hc, ht⟩
  · obtain ⟨s, hx, hm, hz, ha, hi, hh⟩ := putsp [⟨[0x62], true⟩]
    obtain ⟨hc, t, ht⟩ := (resumed_scan putspOf hz hi).1 hh
    exact ⟨_, s, t, hx, hm, hz.wf, ha, hc, ht⟩
  · obtain ⟨s, hx, hm, hz, ha, hi, hh⟩ := puts []
    obtain ⟨t, u, ht, hr, hu⟩ := (resumed_scan putsOf hz hi).2 hh
    exact ⟨_, s, t, u, hx, hm, hz.wf, ha, ht, hr, hu⟩
  · obtain ⟨s, hx, hm, hz, ha, hi, hh⟩ := putsp []
    obtain ⟨t, u, ht, hr, hu⟩ := (resumed_scan putspOf hz hi).2 hh
    exact ⟨_, s, t, u, hx, hm, hz.wf, ha, ht, hr, hu⟩

/-- A host that supplies the byte 0x61 in every turn, for ever. -/
def typist : HostSchedule := ⟨[⟨[0x61], false⟩], .cycle [⟨[0x61], false⟩]⟩

theorem scheduleAfter_typist (n : Nat) :
    scheduleAfter n ⟨[], typist.later⟩ = ⟨[], typist.later⟩ := by
  induction n with
  | zero => rfl
  | succ n ih => exact ih

theorem typist_keepsSupplying : KeepsSupplying ⟨[], typist.later⟩ ∧ KeepsSupplying typist := by
  have h : KeepsSupplying ⟨[], typist.later⟩ := fun n => by
    rw [scheduleAfter_typist]
    decide
  exact ⟨h, fun n => match n with
    | 0 => by decide
    | n + 1 => h n⟩

/-- Each clause: the trap word of an endless PUTS or PUTSP, and the unfinished scan its step leaves. -/
theorem witness_ScanWithoutTerminatorNeverEnds :
    (∃ r s, step r = .next s ∧ MayStep s ∧ NoTerminator s ∧ s.activity = .putsScan 0xFE01) ∧
    (∃ r s, step r = .next s ∧ MayStep s ∧ NoTerminator s ∧ s.activity = .putspScan 0xFE01) ∧
    ∀ w, w = 0xF022 ∧ decode w = .puts ∨ w = 0xF024 ∧ decode w = .putsp →
      MayStep (endless w typist) ∧ NoTerminator (endless w typist) ∧
        (endless w typist).activity = .boundary ∧
        (endless w typist).hostActs.cancelRequested = false ∧
        (endless w typist).pc ≠ kbsrAddr ∧
        (endless w typist).cell (endless w typist).pc = w := by
  refine ⟨?_, ?_, fun w hw => ?_⟩
  · obtain ⟨s, hx, hm, hz, ha, hi, hh⟩ := step_endless putsBytes .putsScan 0xF022 .puts [] _
      (by decide) (by decide) fun _ => rfl
    exact ⟨_, s, hx, hm, ⟨hz.wf, fun a _ => hz.cells a, by simp [hi],
      hh ▸ typist_keepsSupplying.1⟩, ha⟩
  · obtain ⟨s, hx, hm, hz, ha, hi, hh⟩ := step_endless putspBytes .putspScan 0xF024 .putsp [] _
      (by decide) (by decide) fun _ => rfl
    exact ⟨_, s, hx, hm, ⟨hz.wf, fun a _ => hz.cells a, by simp [hi],
      hh ▸ typist_keepsSupplying.1⟩, ha⟩
  · have h0 : w ≠ 0 := by rcases hw with ⟨rfl, _⟩ | ⟨rfl, _⟩ <;> decide
    have hz := endless_noZero h0 (endless w typist) rfl
    exact ⟨⟨rfl, rfl⟩, ⟨hz.wf, fun a _ => hz.cells a, show 0x00 ∉ ([] : List Byte) by simp, typist_keepsSupplying.2⟩, rfl, rfl,
      show (0x3001 : Word) ≠ kbsrAddr by decide, endless_cell w typist⟩

theorem witness_TrapRoutinesTouchOnlyWhatTheySay :
    (Instr.getc.wf = true ∧ isTrap .getc = true) ∧ (Instr.puts.wf = true ∧ isTrap .puts = true) ∧
      ((Instr.trap 0x26).wf = true ∧ isTrap (.trap 0x26) = true) ∧
      Instr.halt ≠ .getc ∧ Instr.halt ≠ .inp ∧ Instr.halt ≠ .puts ∧ Instr.halt ≠ .putsp := by decide

theorem witness_OutputIsAppendedByTrapRoutinesOnly :
    (Instr.getc.wf = true ∧ Instr.getc ≠ .out ∧ Instr.getc ≠ .puts ∧ Instr.getc ≠ .inp ∧
      Instr.getc ≠ .putsp ∧ Instr.getc ≠ .halt) ∧ ∃ t, step State.reset = .next t :=
  ⟨by decide, _, rfl⟩

/-- A CORE blocked in GETC or IN, with what the host does next. -/
def blockedIn (a : Activity) (slot : HostSlot) : State :=
  { start 0x3001 [] with activity := a, host := ⟨[slot], .cycle []⟩ }

theorem witness_OnlyInputOrCancellationLiftsABlockedRead :
    (MayStep (blockedIn .getcRead ⟨[], false⟩) ∧ Blocked (blockedIn .getcRead ⟨[], false⟩)) ∧
      (MayStep (blockedIn .inRead ⟨[0], true⟩) ∧ Blocked (blockedIn .inRead ⟨[0], true⟩)) ∧
      (Instr.halt.wf = true ∧ Instr.halt ≠ .getc ∧ Instr.halt ≠ .inp) ∧
      (Instr.inp = .getc ∨ Instr.inp = .inp) :=
  ⟨⟨⟨rfl, rfl⟩, .inl rfl⟩, ⟨⟨rfl, rfl⟩, .inr rfl⟩, by decide, .inr rfl⟩

theorem witness_BlockedReadsResumeOrAreAbandoned :
    State.reset.input = [] ∧
      (MayStep (blockedIn .getcRead ⟨[], true⟩) ∧ Blocked (blockedIn .getcRead ⟨[], true⟩) ∧
        (blockedIn .getcRead ⟨[], true⟩).hostActs.input = [] ∧
        (blockedIn .getcRead ⟨[], true⟩).hostActs.cancelRequested = true) ∧
      (MayStep (blockedIn .inRead ⟨[0x79], true⟩) ∧ Blocked (blockedIn .inRead ⟨[0x79], true⟩) ∧
        (blockedIn .inRead ⟨[0x79], true⟩).hostActs.input = 0x79 :: []) :=
  ⟨rfl, ⟨⟨rfl, rfl⟩, .inl rfl, rfl, rfl⟩, ⟨rfl, rfl⟩, .inr rfl, rfl⟩

theorem witness_CancellationIsTakenBeforeTheFetch :
    MayStep { State.reset with host := ⟨[⟨[], true⟩], .cycle []⟩ } ∧
      ({ State.reset with host := ⟨[⟨[], true⟩], .cycle []⟩ } : State).activity = .boundary ∧
      ({ State.reset with host := ⟨[⟨[], true⟩], .cycle []⟩ } : State).hostActs.cancelRequested = true :=
  ⟨⟨rfl, rfl⟩, rfl, rfl⟩

theorem witness_HostTurnQueuesBytesAndRequests :
    State.reset.host = ⟨[], .cycle []⟩ ∧
      (blockedIn .getcRead ⟨[1, 2], true⟩).host = ⟨⟨[1, 2], true⟩ :: [], .cycle []⟩ ∧
      (endless 0 ⟨[], .cycle [⟨[1], false⟩]⟩).host = ⟨[], .cycle (⟨[1], false⟩ :: [])⟩ ∧
      (endless 0 ⟨[], .unknown 0⟩).host = ⟨[], .unknown 0⟩ := by
  decide

theorem witness_FatalStopIsAnOutcomeAndTheLastStep :
    (∃ low, Instr.rti 0xFFF = .rti low) ∧ ∃ low, Instr.res 0 = .res low := ⟨⟨_, rfl⟩, _, rfl⟩

theorem witness_OnlyHaltAndFatalHandlersEndTheLoop :
    MayStep State.reset ∧ (Instr.halt.wf = true ∧ endsRun .halt) ∧
      (Instr.getc.wf = true ∧ ¬ endsRun .getc) :=
  ⟨⟨rfl, rfl⟩, ⟨rfl, .inl rfl⟩, rfl, by simp [endsRun]⟩

theorem witness_EngineHaltsOnlyByTheHaltTrap :
    State.reset.haltEngine.engine = .halted ∧
      (∃ t, step (start 0x3000 [(0x3000, 0xF025)]) = .next t ∧ t.engine = .halted) ∧
      (∃ t op w pc, step (start 0x3000 [(0x3000, 0x8000)]) = .next t ∧
        t.outcome = some (.fatal op w pc)) ∧
      ∃ t, step { State.reset with cancelRequested := true } = .next t ∧
        t.outcome = some .cancelled :=
  ⟨rfl, ⟨_, rfl, rfl⟩, ⟨_, _, _, _, rfl, rfl⟩, _, rfl, rfl⟩

theorem witness_StepFaultsExactlyWhenTheRunHasEnded :
    (State.reset.raiseFatal 0x8 0x8000).outcome = some (.fatal 0x8 0x8000 0x3000) ∧
      (({ State.reset with engine := .halted } : State).outcome = none ∧
        ({ State.reset with engine := .halted } : State).engine = .halted) ∧
      MayStep State.reset := ⟨rfl, ⟨rfl, rfl⟩, rfl, rfl⟩

theorem witness_StepRunsTheDecodedInstruction :
    MayStep (start 0xFFFF [(0xFFFF, 0xE005)]) ∧
      (start 0xFFFF [(0xFFFF, 0xE005)]).activity = .boundary ∧
      (start 0xFFFF [(0xFFFF, 0xE005)]).hostActs.cancelRequested = false ∧
      decode ((start 0xFFFF [(0xFFFF, 0xE005)]).hostActs.memRead 0xFFFF).1 = .lea 0 5 ∧
      (start 0xFFFF [(0xFFFF, 0xE005)]).pc ≠ kbsrAddr ∧
      decode ((start 0xFFFF [(0xFFFF, 0xE005)]).cell 0xFFFF) = .lea 0 5 :=
  ⟨⟨rfl, rfl⟩, rfl, rfl, by decide, by decide, by decide⟩

theorem witness_HandlersRunAfterTheIncrement :
    (MayStep (start 0xFFFF []) ∧ (start 0xFFFF []).activity = .boundary ∧
      (start 0xFFFF []).hostActs.cancelRequested = false) ∧
      writesPc (.res 0) = false ∧ writesPc .halt = false :=
  ⟨⟨⟨rfl, rfl⟩, rfl, rfl⟩, rfl, rfl⟩

theorem witness_FetchFromKbsrRunsThePollsAnswer :
    (Memory.wf (atKbsr []).mem ∧ MayStep (atKbsr []) ∧ (atKbsr []).activity = .boundary ∧
      (atKbsr []).pc = kbsrAddr ∧ (atKbsr []).hostActs.cancelRequested = false ∧
      (atKbsr []).hostActs.input = []) ∧
      MayStep (atKbsr [0x78]) ∧ (atKbsr [0x78]).hostActs.input = 0x78 :: [] :=
  ⟨⟨by decide, ⟨rfl, rfl⟩, rfl, rfl, rfl, rfl⟩, ⟨rfl, rfl⟩, rfl⟩

/-- A state of a run that has executed LEA is sound, with a flag set, and takes a step. -/
theorem witness_StepsKeepStatesSound :
    State.Inv { start 0x3001 [(0x3000, 0xE005)] with cond := flagP } ∧
      ∃ t, step { start 0x3001 [(0x3000, 0xE005)] with cond := flagP } = .next t :=
  ⟨⟨by decide, by decide, by decide, by decide, fun _ _ _ h => by cases h⟩, _, rfl⟩

theorem witness_ResetSequenceLeavesTheStartState :
    (0x2FFF : Word).toNat < (0x30 : Byte).toNat * 256 + (0x00 : Byte).toNat ∧
      (HostSchedule.next ⟨[⟨[0x61], false⟩, ⟨[], true⟩], .unknown 0⟩).1.cancel = false := by decide

theorem witness_ImageWordsAreLoadedFromTheOrigin :
    boot (some [0xFF, 0xFF, 0x12, 0x34, 0x56, 0x78, 0x9A]) =
        .ok (start 0x3000 [(0xFFFF, 0x1234)]) ∧
      (0xFFFF : Word).toNat = (0xFF : Byte).toNat * 256 + (0xFF : Byte).toNat + 0 ∧
      ([0x12, 0x34, 0x56, 0x78, 0x9A] : List Byte)[2 * 0]? = some 0x12 ∧
      ([0x12, 0x34, 0x56, 0x78, 0x9A] : List Byte)[2 * 0 + 1]? = some 0x34 ∧
      (0 : Word).toNat < (0xFF : Byte).toNat * 256 + (0xFF : Byte).toNat :=
  ⟨rfl, by decide, by decide, by decide, by decide⟩

theorem witness_LoadFailsOnlyWithoutAnOrigin :
    ([0x30] : List Byte).length < 2 ∧ 2 ≤ ([0x30, 0x00, 0x12] : List Byte).length ∧
      ([0x30, 0x00] : List Byte).length = 2 := by decide

end Sys2Proof.Tests
end

section
/-!
Sign extension read as a number, and the statement of 00_scope.md R10.
-/

namespace Sys2Proof.Machine

/-- A sign bit that is set adds all the bits from the field's width up to bit 15 (R10). -/
theorem toNat_sext {n : Nat} (v : BitVec n) (hn : n ≤ 16) :
    (sext v).toNat = if v.getLsbD (n - 1) then v.toNat + (0x10000 - 2 ^ n) else v.toNat := by
  have hfit : v.toNat < 2 ^ 16 := Nat.lt_of_lt_of_le v.isLt (Nat.pow_le_pow_right (by decide) hn)
  rw [sext, BitVec.toNat_signExtend, BitVec.toNat_setWidth, Nat.mod_eq_of_lt hfit,
    BitVec.msb_eq_getLsbD_last]
  split <;> rfl

/-- Settles O5: the bits by `getLsbD_sext` and `getLsbD_zext16`, the number by `toNat_sext`. -/
theorem signExtensionFillsTheHigherBits : Obligations.SignExtensionFillsTheHigherBits := by
  refine ⟨fun n v hn => ?_, getLsbD_zext16⟩
  have hwidth : n ≤ 16 := (by decide : ∀ m ∈ [5, 6, 9, 11], m ≤ 16) n hn
  exact ⟨getLsbD_sext v, toNat_sext v hwidth⟩

end Sys2Proof.Machine
end

section
/-!
The frame of a memory read, what a flag setter does, and the statement of 10_state.md R25.
-/

namespace Sys2Proof.Machine

open Sys2Proof.Claims

/-! ### The frame of a read -/

theorem pollFrame_refl (s : State) : PollFrame s s :=
  ⟨fun _ => rfl, rfl, rfl, rfl, rfl, rfl, rfl, rfl, rfl⟩

theorem pollFrame_memRead (s : State) (a : Word) : PollFrame s (s.memRead a).2 :=
  ⟨reg_congr (memRead_regs s a), memRead_pc s a, memRead_cond s a, memRead_engine s a,
    memRead_outcome s a, memRead_activity s a, memRead_output s a, memRead_cancelRequested s a,
    memRead_host s a⟩

theorem pollFrame_trans {s t u : State} (h : PollFrame s t) (h' : PollFrame t u) :
    PollFrame s u where
  regs r := (h'.regs r).trans (h.regs r)
  pc := h'.pc.trans h.pc
  cond := h'.cond.trans h.cond
  engine := h'.engine.trans h.engine
  outcome := h'.outcome.trans h.outcome
  activity := h'.activity.trans h.activity
  output := h'.output.trans h.output
  cancelRequested := h'.cancelRequested.trans h.cancelRequested
  host := h'.host.trans h.host

/-! ### Flag setters (10_state.md R25, R27) -/

/-- A flag setter reads memory or not, then writes a result to its destination. -/
theorem exec_of_destOf {i : Instr} {d : Reg} (h : destOf i = some d) (s : State) :
    ∃ u v, exec i s = .next (u.writeResult d v) ∧ PollFrame s u := by
  cases i <;> cases h
  case addReg | addImm | andReg | andImm | not | lea => exact ⟨s, _, rfl, pollFrame_refl s⟩
  case ld | ldr => exact ⟨_, _, rfl, pollFrame_memRead s _⟩
  case ldi => exact ⟨_, _, rfl, pollFrame_trans (pollFrame_memRead s _) (pollFrame_memRead _ _)⟩

/-- Settles O7: every flag setter ends in `writeResult` (`exec_of_destOf`), whose flag is `flagOf`. -/
theorem flagSettersSetTheFlagOfTheirDestination :
    Obligations.FlagSettersSetTheFlagOfTheirDestination := by
  refine ⟨rfl, fun i d s hd => ?_⟩
  obtain ⟨u, v, hx, -⟩ := exec_of_destOf hd s
  refine ⟨_, hx, ?_⟩
  rw [writeResult_cond, writeResult_reg_same]
  exact ⟨flagOf_signed v, rfl, flagOf_legal v, by decide, by decide, by decide⟩

end Sys2Proof.Machine
end

section
/-!
What a handler leaves of the PC, and the statement of 40_cycle.md R122.
-/

namespace Sys2Proof.Machine

open Sys2Proof.Claims

/-! ### The routines and the PC -/

@[simp] theorem getcRead_pc (s : State) : s.getcRead.pc = s.pc := by
  rcases getcRead_cases s with ⟨-, h⟩ | ⟨b, rest, -, h⟩ <;> rw [h]

@[simp] theorem inRead_pc (s : State) : s.inRead.pc = s.pc := by
  rcases inRead_cases s with ⟨-, h⟩ | ⟨b, rest, -, h⟩ <;> rw [h]

@[simp] theorem inRoutine_pc (s : State) : s.inRoutine.pc = s.pc := inRead_pc _

@[simp] theorem putsFrom_pc (s : State) (a : Word) : (s.putsFrom a).pc = s.pc :=
  scan_field State.pc poll_pc emit_pc (fun _ _ => rfl) _ _ _ a s

@[simp] theorem putspFrom_pc (s : State) (a : Word) : (s.putspFrom a).pc = s.pc :=
  scan_field State.pc poll_pc emit_pc (fun _ _ => rfl) _ _ _ a s

/-- No routine of the dispatcher writes the PC, whatever the vector. -/
@[simp] theorem dispatch_pc (s : State) (v : BitVec 8) : (s.dispatch v).pc = s.pc := by
  unfold State.dispatch
  split
  · exact getcRead_pc s
  · rfl
  · exact putsFrom_pc s _
  · exact inRoutine_pc s
  · exact putspFrom_pc s _
  · rfl
  · rfl

/-! ### Handlers and the PC (10_state.md R34, 40_cycle.md R122) -/

/-- A handler that is not in the list of R34 leaves the PC where it finds it. -/
theorem exec_pc {i : Instr} (h : writesPc i = false) (s : State) :
    ∃ t, exec i s = .next t ∧ t.pc = s.pc := by
  match hd : destOf i with
  | some d =>
    obtain ⟨u, v, hx, hu⟩ := exec_of_destOf hd s
    exact ⟨_, hx, hu.pc⟩
  | none =>
    cases i <;> cases hd <;> cases h
    case st | str | out | halt | rti | res => exact ⟨_, rfl, rfl⟩
    case sti => exact ⟨_, rfl, memRead_pc s _⟩
    case trap => exact ⟨_, rfl, dispatch_pc s _⟩
    case getc => exact ⟨_, rfl, getcRead_pc s⟩
    case inp => exact ⟨_, rfl, inRoutine_pc s⟩
    case puts => exact ⟨_, rfl, putsFrom_pc s _⟩
    case putsp => exact ⟨_, rfl, putspFrom_pc s _⟩

/-- The increment of the PC, as a number. -/
theorem add_one_eq_ofNat (a : Word) : a + 1 = BitVec.ofNat 16 ((a.toNat + 1) % 65536) :=
  BitVec.eq_of_toNat_eq (by simp)

/-- A step at a boundary with no cancellation pending runs the fetched word (40_cycle.md R120). -/
theorem step_of_boundary {s : State} (hs : MayStep s) (hb : s.activity = .boundary)
    (hc : s.hostActs.cancelRequested = false) :
    step s = exec (decode s.hostActs.fetch.1) s.hostActs.fetch.2 := by
  have he : s.ended = none := (ended_eq_none s).2 hs
  simp only [step, he, hostActs_activity, hb, stepAtBoundary, hc, Bool.false_eq_true, if_false]

/-- Settles O49: the state a handler starts from is the fetch's, and `exec_pc` for the handlers that
do not write the PC. -/
theorem handlersRunAfterTheIncrement : Obligations.HandlersRunAfterTheIncrement :=
  ⟨fun s hs hb hc =>
    ⟨s.hostActs.fetch.2, step_of_boundary hs hb hc, add_one_eq_ofNat s.pc, rfl⟩,
    fun s => add_one_eq_ofNat s.pc, fun _ s h => exec_pc h s, fun _ => rfl⟩

end Sys2Proof.Machine
end

section
/-!
What a handler and a step do to the engine state, and the statement of 10_state.md R30.
-/

namespace Sys2Proof.Machine

open Sys2Proof.Claims

/-! ### The routines and the engine state -/

@[simp] theorem getcRead_engine (s : State) : s.getcRead.engine = s.engine := by
  rcases getcRead_cases s with ⟨-, h⟩ | ⟨b, rest, -, h⟩ <;> rw [h]

@[simp] theorem inRead_engine (s : State) : s.inRead.engine = s.engine := by
  rcases inRead_cases s with ⟨-, h⟩ | ⟨b, rest, -, h⟩ <;> rw [h]

@[simp] theorem inRoutine_engine (s : State) : s.inRoutine.engine = s.engine := inRead_engine _

@[simp] theorem putsFrom_engine (s : State) (a : Word) : (s.putsFrom a).engine = s.engine :=
  scan_field State.engine poll_engine emit_engine (fun _ _ => rfl) _ _ _ a s

@[simp] theorem putspFrom_engine (s : State) (a : Word) : (s.putspFrom a).engine = s.engine :=
  scan_field State.engine poll_engine emit_engine (fun _ _ => rfl) _ _ _ a s

/-- Nothing that a step resumes halts the engine. -/
@[simp] theorem resume_engine (s : State) : s.resume.engine = s.engine := by
  unfold State.resume
  split
  · rfl
  · split
    · rfl
    · exact getcRead_engine s
  · split
    · rfl
    · exact inRead_engine s
  · exact putsFrom_engine s _
  · exact putspFrom_engine s _

@[simp] theorem fetch_engine (s : State) : s.fetch.2.engine = s.engine := memRead_engine s _

/-! ### Handlers and steps (10_state.md R30) -/

/-- The handler of every well-formed instruction but HALT leaves the engine state as it is. -/
theorem exec_engine {i : Instr} (hi : i.wf = true) (hne : i ≠ .halt) (s : State) :
    ∃ t, exec i s = .next t ∧ t.engine = s.engine := by
  match hd : destOf i with
  | some d =>
    obtain ⟨u, v, hx, hu⟩ := exec_of_destOf hd s
    exact ⟨_, hx, hu.engine⟩
  | none =>
    cases i <;> cases hd
    case jmp | ret | jsr | jsrr | st | str | out | rti | res => exact ⟨_, rfl, rfl⟩
    case br => exact ⟨_, rfl, by split <;> rfl⟩
    case sti => exact ⟨_, rfl, memRead_engine s _⟩
    case trap => exact ⟨_, rfl, by rw [dispatch_of_wf hi]⟩
    case getc => exact ⟨_, rfl, getcRead_engine s⟩
    case inp => exact ⟨_, rfl, inRoutine_engine s⟩
    case puts => exact ⟨_, rfl, putsFrom_engine s _⟩
    case putsp => exact ⟨_, rfl, putspFrom_engine s _⟩
    case halt => exact absurd rfl hne

/-- The step from `s` runs the HALT trap. -/
def RunsHalt (s : State) : Prop :=
  s.activity = .boundary ∧ s.hostActs.cancelRequested = false ∧
    decode s.hostActs.fetch.1 = .halt

/-- A step runs HALT and ends HALTED with the outcome HALTED, or does not and ends RUNNING. -/
theorem step_engine {s t : State} (h : step s = .next t) :
    (RunsHalt s ∧ t.engine = .halted ∧ t.outcome = some .halted) ∨
      (¬ RunsHalt s ∧ t.engine = .running) := by
  obtain ⟨he, hcase⟩ := step_cases h
  have hrun : s.engine = .running := ((ended_eq_none s).1 he).2
  rcases hcase with ⟨-, hc, rfl⟩ | ⟨hb, hc, hx⟩ | ⟨hb, rfl⟩
  · exact .inr ⟨fun ⟨_, hc', _⟩ => Bool.false_ne_true (hc'.symm.trans hc), hrun⟩
  · by_cases hh : decode s.hostActs.fetch.1 = .halt
    · rw [hh] at hx
      cases hx
      exact .inl ⟨⟨hb, hc, hh⟩, rfl, rfl⟩
    · obtain ⟨u, hu, heng⟩ := exec_engine (decode_wf _) hh s.hostActs.fetch.2
      cases hu.symm.trans hx
      exact .inr ⟨fun ⟨_, _, hh'⟩ => hh hh', heng.trans ((fetch_engine _).trans hrun)⟩
  · exact .inr ⟨fun ⟨hb', _⟩ => hb hb', (resume_engine _).trans hrun⟩

/-- Settles O45: a step is taken from RUNNING only (`step_cases`), and `step_engine` says when it ends
HALTED and with which outcome. -/
theorem engineHaltsOnlyByTheHaltTrap : Obligations.EngineHaltsOnlyByTheHaltTrap := by
  refine ⟨rfl, fun s hs t ht => ?_, fun s t ht => ?_⟩
  · have hrun : s.engine = .running := ((ended_eq_none s).1 (step_cases ht).1).2
    exact nomatch hs.symm.trans hrun
  · rcases step_engine ht with ⟨hr, heng, ho⟩ | ⟨hr, heng⟩
    · exact ⟨iff_of_true heng hr, by simp [ho], by simp [ho]⟩
    · exact ⟨iff_of_false (by simp [heng]) hr, fun _ _ _ _ => heng, fun _ => heng⟩

end Sys2Proof.Machine
end

section
/-!
The bytes a handler and a step write to the console, and the statement of 20_memory.md R62.
-/

namespace Sys2Proof.Machine

open Sys2Proof.Claims

/-! ### The routines and the output -/

@[simp] theorem getcRead_output (s : State) : s.getcRead.output = s.output := by
  rcases getcRead_cases s with ⟨-, h⟩ | ⟨b, rest, -, h⟩ <;> rw [h]

/-- The read of IN echoes a byte or nothing. -/
theorem output_prefix_inRead (s : State) : s.output <+: s.inRead.output := by
  rcases inRead_cases s with ⟨-, h⟩ | ⟨b, rest, -, h⟩ <;> rw [h]
  exact List.prefix_append _ _

theorem output_prefix_emit (s : State) (bs : List Byte) : s.output <+: (s.emit bs).output :=
  List.prefix_append _ _

theorem output_prefix_inRoutine (s : State) : s.output <+: s.inRoutine.output :=
  (output_prefix_emit s _).trans (output_prefix_inRead _)

/-- A scan only appends: its reads leave the output alone. -/
theorem output_prefix_scan (bytes : Word → List Byte) (more : Word → Activity) (n : Nat) (a : Word)
    (s : State) : s.output <+: (State.scan bytes more n a s).output :=
  scan_keeps (P := fun t => s.output <+: t.output) bytes more
    (fun t b h => (memRead_output t b).symm ▸ h) (fun t bs h => h.trans (output_prefix_emit t bs))
    (fun _ _ h => h) n a s (List.prefix_refl _)

theorem output_prefix_putsFrom (s : State) (a : Word) : s.output <+: (s.putsFrom a).output :=
  output_prefix_scan _ _ _ a s

theorem output_prefix_putspFrom (s : State) (a : Word) : s.output <+: (s.putspFrom a).output :=
  output_prefix_scan _ _ _ a s

/-- Whatever a step resumes only appends. -/
theorem output_prefix_resume (s : State) : s.output <+: s.resume.output := by
  unfold State.resume
  split
  · exact List.prefix_refl _
  · split
    · exact List.prefix_refl _
    · exact (getcRead_output s).symm ▸ List.prefix_refl _
  · split
    · exact List.prefix_refl _
    · exact output_prefix_inRead s
  · exact output_prefix_putsFrom s _
  · exact output_prefix_putspFrom s _

@[simp] theorem fetch_output (s : State) : s.fetch.2.output = s.output := memRead_output s _

/-! ### Handlers, steps and the output (20_memory.md R62) -/

/-- The instructions that write to the console. -/
def consoleWriters : List Instr := [.out, .puts, .inp, .putsp, .halt]

/-- The handler of every other well-formed instruction leaves the output as it is. -/
theorem exec_output_eq {i : Instr} (hi : i.wf = true) (hw : i ∉ consoleWriters) (s : State) :
    ∃ t, exec i s = .next t ∧ t.output = s.output := by
  match hd : destOf i with
  | some d =>
    obtain ⟨u, v, hx, hu⟩ := exec_of_destOf hd s
    exact ⟨_, hx, hu.output⟩
  | none =>
    cases i <;> cases hd
    case jmp | ret | jsr | jsrr | st | str | rti | res => exact ⟨_, rfl, rfl⟩
    case br => exact ⟨_, rfl, by split <;> rfl⟩
    case sti => exact ⟨_, rfl, memRead_output s _⟩
    case trap => exact ⟨_, rfl, by rw [dispatch_of_wf hi]⟩
    case getc => exact ⟨_, rfl, getcRead_output s⟩
    case out | puts | inp | putsp | halt => exact absurd (by decide) hw

/-- The handler of a console writer only appends. -/
theorem exec_output_prefix_of_writer {i : Instr} (hw : i ∈ consoleWriters) (s : State) :
    ∃ t, exec i s = .next t ∧ s.output <+: t.output := by
  simp only [consoleWriters, List.mem_cons, List.not_mem_nil, or_false] at hw
  rcases hw with rfl | rfl | rfl | rfl | rfl
  · exact ⟨_, rfl, output_prefix_emit s _⟩
  · exact ⟨_, rfl, output_prefix_putsFrom s _⟩
  · exact ⟨_, rfl, output_prefix_inRoutine s⟩
  · exact ⟨_, rfl, output_prefix_putspFrom s _⟩
  · exact ⟨_, rfl, output_prefix_emit s _⟩

/-- Every handler of a well-formed instruction only appends, and appends nothing unless it is a
console writer's. -/
theorem exec_output {i : Instr} (hi : i.wf = true) (s : State) :
    ∃ t bs, exec i s = .next t ∧ t.output = s.output ++ bs ∧ (i ∉ consoleWriters → bs = []) := by
  by_cases hw : i ∈ consoleWriters
  · obtain ⟨t, hx, bs, ho⟩ := exec_output_prefix_of_writer hw s
    exact ⟨t, bs, hx, ho.symm, fun h => absurd hw h⟩
  · obtain ⟨t, hx, ho⟩ := exec_output_eq hi hw s
    exact ⟨t, [], hx, by simp [ho], fun _ => rfl⟩

/-- A step only appends: the host's turn, the fetch and a cancellation write nothing. -/
theorem step_output_prefix {s t : State} (h : step s = .next t) : s.output <+: t.output := by
  rcases (step_cases h).2 with ⟨-, -, rfl⟩ | ⟨-, -, hx⟩ | ⟨-, rfl⟩
  · exact List.prefix_refl _
  · obtain ⟨u, bs, hu, ho, -⟩ := exec_output (decode_wf _) s.hostActs.fetch.2
    cases hu.symm.trans hx
    exact ⟨bs, by rw [ho, fetch_output, hostActs_output]⟩
  · exact output_prefix_resume s.hostActs

/-- Settles O37: an emission by definition, the handlers by `exec_output`, and the steps by
`step_output_prefix`. -/
theorem outputIsAppendedByTrapRoutinesOnly : Obligations.OutputIsAppendedByTrapRoutinesOnly := by
  refine ⟨fun _ _ => rfl, fun i s hi => ?_, fun s t h => ?_⟩
  · obtain ⟨t, bs, hx, ho, hsilent⟩ := exec_output hi s
    exact ⟨t, bs, hx, ho, fun h₁ h₂ h₃ h₄ h₅ =>
      hsilent (by simp [consoleWriters, h₁, h₂, h₃, h₄, h₅])⟩
  · obtain ⟨bs, hb⟩ := step_output_prefix h
    exact ⟨bs, hb.symm⟩

end Sys2Proof.Machine
end

section
/-!
What a store leaves, where a load puts the words of an image, computed addresses, and the statements
of 20_memory.md R51, R52 and R54.
-/

namespace Sys2Proof.Machine

open Sys2Proof.Claims

/-! ### Stores and reads (20_memory.md R52, R54) -/

theorem envSame_memWrite (s : State) (a v : Word) : EnvSame s (s.memWrite a v) :=
  ⟨rfl, rfl, rfl, rfl, rfl, rfl, rfl, rfl⟩

/-- A store changes its cell and nothing else, whatever the address. -/
theorem stored_memWrite {s : State} (h : Memory.wf s.mem) (a v : Word) :
    Stored a v s (s.memWrite a v) :=
  ⟨cell_setCell_same h a v, fun _ hb => cell_setCell_other s v hb, fun _ => rfl, rfl, rfl,
    envSame_memWrite s a v⟩

/-- Settles O20: `stored_memWrite` has no hypothesis on the address. -/
theorem writesOnlyStore : Obligations.WritesOnlyStore :=
  fun _ a v h => stored_memWrite h a v

/-- The word an ordinary address reads as. -/
theorem memRead_fst_other (s : State) {a : Word} (h : a ≠ kbsrAddr) :
    (s.memRead a).1 = s.cell a := by
  rw [memRead_other s h]

/-! ### The words of an image (70_reset_and_hazards.md R242) -/

/-- The `k`-th word of a byte stream is its `k`-th pair of bytes, the high byte first. -/
theorem wordsOfBytes_getElem? {bytes : List Byte} {k : Nat} {x y : Byte}
    (hx : bytes[2 * k]? = some x) (hy : bytes[2 * k + 1]? = some y) :
    (wordsOfBytes bytes)[k]? = some (x ++ y) := by
  induction bytes using wordsOfBytes.induct generalizing k with
  | case1 hi lo rest ih =>
    cases k with
    | zero =>
      obtain rfl : hi = x := by simpa using hx
      obtain rfl : lo = y := by simpa using hy
      rfl
    | succ k => exact ih hx hy
  | case2 b => simp at hy
  | case3 => simp at hx

/-- A load from `a` puts its `k`-th word at `a + k`, where that is an address: the later words go to
higher cells. -/
theorem read_loadWords {ws : List Word} {k : Nat} {w : Word} (hw : ws[k]? = some w) {a : Nat}
    {m : Memory} (hm : Memory.wf m) (h : a + k < 65536) :
    Memory.read (loadWords a ws m) (a + k) = w := by
  induction ws generalizing a m k with
  | nil => simp at hw
  | cons v ws ih =>
    have ha : a < 65536 := by omega
    rw [loadWords, if_pos ha]
    cases k with
    | zero =>
      obtain rfl : v = w := by simpa using hw
      exact (read_loadWords_below ws _ (Nat.lt_add_one a)).trans (read_write_same hm a v)
    | succ k =>
      rw [show a + (k + 1) = a + 1 + k by omega]
      exact ih (by simpa using hw) (write_wf hm ha v) (by omega)

/-- A stream with an origin word boots to the reset state with its other words loaded (R242). -/
theorem boot_of_origin (hi lo : Byte) (rest : List Byte) :
    boot (some (hi :: lo :: rest)) = .ok { State.reset with
      mem := loadWords (hi ++ lo : Word).toNat (wordsOfBytes rest) State.reset.mem } := rfl

/-- After a boot, a cell that the image covers holds the image's word. -/
theorem cell_of_boot {hi lo x y : Byte} {rest : List Byte} {s : State} {a : Word} {k : Nat}
    (hs : boot (some (hi :: lo :: rest)) = .ok s)
    (ha : a.toNat = hi.toNat * 256 + lo.toNat + k)
    (hx : rest[2 * k]? = some x) (hy : rest[2 * k + 1]? = some y) : s.cell a = x ++ y := by
  cases (boot_of_origin hi lo rest).symm.trans hs
  rw [← toNat_bigEndian] at ha
  have hk : (hi ++ lo : Word).toNat + k < 65536 := ha ▸ a.isLt
  rw [State.cell, ha]
  exact read_loadWords (wordsOfBytes_getElem? hx hy) (by decide : Memory.wf State.reset.mem) hk

/-- Settles O19: a read of any address but KBSR gives the cell (`memRead_other`), a cell holds what
was last stored in it, and `cell_of_boot` says what a load stores. -/
theorem ordinaryAddressesReadAsLastWritten : Obligations.OrdinaryAddressesReadAsLastWritten := by
  refine ⟨fun s a ha => memRead_other s ha, fun s => memRead_other s (by decide),
    fun s a v hm ha => ?_, fun s a b v ha hab => ?_, fun a ha => ?_,
    fun hi lo x y rest s a k hs ha hak hx hy => ?_⟩
  · rw [memRead_fst_other _ ha]
    exact cell_setCell_same hm a v
  · rw [memRead_fst_other _ ha, memRead_fst_other _ ha]
    exact cell_setCell_other s v hab
  · exact memRead_fst_other _ ha
  · rw [memRead_fst_other _ ha, cell_of_boot hs hak hx hy]
    exact toNat_bigEndian x y

/-! ### Computed addresses (20_memory.md R51) -/

/-- Settles O13: the addresses by `add_sext`, and each of the handlers answers `.next` whatever its
address. -/
theorem computedAddressesWrap : Obligations.ComputedAddressesWrap := by
  refine ⟨fun s _ off _ => add_sext s.pc off, fun s base off => add_sext (s.reg base) off,
    fun s r base off9 off6 => ?_⟩
  simp only [List.forall_mem_cons]
  exact ⟨⟨_, rfl⟩, ⟨_, rfl⟩, ⟨_, rfl⟩, ⟨_, rfl⟩, ⟨_, rfl⟩, ⟨_, rfl⟩, ⟨_, rfl⟩,
    fun _ h => absurd h List.not_mem_nil⟩

end Sys2Proof.Machine
end

section
/-!
What a handler does to the run outcome, and the statement of 40_cycle.md R123.
-/

namespace Sys2Proof.Machine

open Sys2Proof.Claims

/-! ### The routines and the outcome -/

@[simp] theorem getcRead_outcome (s : State) : s.getcRead.outcome = s.outcome := by
  rcases getcRead_cases s with ⟨-, h⟩ | ⟨b, rest, -, h⟩ <;> rw [h]

@[simp] theorem inRead_outcome (s : State) : s.inRead.outcome = s.outcome := by
  rcases inRead_cases s with ⟨-, h⟩ | ⟨b, rest, -, h⟩ <;> rw [h]

@[simp] theorem inRoutine_outcome (s : State) : s.inRoutine.outcome = s.outcome :=
  inRead_outcome _

@[simp] theorem putsFrom_outcome (s : State) (a : Word) : (s.putsFrom a).outcome = s.outcome :=
  scan_field State.outcome poll_outcome emit_outcome (fun _ _ => rfl) _ _ _ a s

@[simp] theorem putspFrom_outcome (s : State) (a : Word) : (s.putspFrom a).outcome = s.outcome :=
  scan_field State.outcome poll_outcome emit_outcome (fun _ _ => rfl) _ _ _ a s

/-! ### Handlers that end the loop, and the others (40_cycle.md R123) -/

/-- HALT, RTI and RES record an outcome. -/
theorem exec_outcome_of_endsRun {i : Instr} (h : endsRun i) (s : State) :
    ∃ t o, exec i s = .next t ∧ t.outcome = some o := by
  rcases h with rfl | ⟨low, rfl⟩ | ⟨low, rfl⟩
  · exact ⟨_, _, rfl, haltEngine_outcome _⟩
  · exact ⟨_, _, rfl, raiseFatal_outcome s _ _⟩
  · exact ⟨_, _, rfl, raiseFatal_outcome s _ _⟩

/-- The handler of every other well-formed instruction leaves the outcome as it is. -/
theorem exec_outcome_of_not_endsRun {i : Instr} (hi : i.wf = true) (h : ¬ endsRun i) (s : State) :
    ∃ t, exec i s = .next t ∧ t.outcome = s.outcome := by
  match hd : destOf i with
  | some d =>
    obtain ⟨u, v, hx, hu⟩ := exec_of_destOf hd s
    exact ⟨_, hx, hu.outcome⟩
  | none =>
    cases i <;> cases hd
    case jmp | ret | jsr | jsrr | st | str | out => exact ⟨_, rfl, rfl⟩
    case br => exact ⟨_, rfl, by split <;> rfl⟩
    case sti => exact ⟨_, rfl, memRead_outcome s _⟩
    case trap => exact ⟨_, rfl, by rw [dispatch_of_wf hi]⟩
    case getc => exact ⟨_, rfl, getcRead_outcome s⟩
    case inp => exact ⟨_, rfl, inRoutine_outcome s⟩
    case puts => exact ⟨_, rfl, putsFrom_outcome s _⟩
    case putsp => exact ⟨_, rfl, putspFrom_outcome s _⟩
    case halt => exact absurd (.inl rfl) h
    case rti low => exact absurd (.inr (.inl ⟨low, rfl⟩)) h
    case res low => exact absurd (.inr (.inr ⟨low, rfl⟩)) h

/-- Once an outcome is recorded, no step is taken. -/
theorem step_ne_next_of_outcome {s : State} {o : RunOutcome} (h : s.outcome = some o) (t : State) :
    step s ≠ .next t := by
  intro ht
  have hnone : s.outcome = none := ((ended_eq_none s).1 (step_cases ht).1).1
  exact nomatch h.symm.trans hnone

/-- Settles O44: HALT, RTI and RES record an outcome (`exec_outcome_of_endsRun`), and the others leave
it as it is (`exec_outcome_of_not_endsRun`); the engine by `exec_engine`. -/
theorem onlyHaltAndFatalHandlersEndTheLoop : Obligations.OnlyHaltAndFatalHandlersEndTheLoop := by
  intro i s hi ⟨hnone, hrun⟩
  by_cases hh : i = .halt
  · subst hh
    exact ⟨_, rfl, fun _ => step_ne_next_of_outcome (haltEngine_outcome _),
      fun h => absurd (.inl rfl) h, fun _ => rfl, fun h => absurd rfl h⟩
  · obtain ⟨t, hx, heng⟩ := exec_engine hi hh s
    have htrun : t.engine = .running := heng.trans hrun
    refine ⟨t, hx, fun he => ?_, fun he => ?_, fun h => absurd h hh, fun _ => htrun⟩
    · obtain ⟨u, o, hu, ho⟩ := exec_outcome_of_endsRun he s
      cases hu.symm.trans hx
      exact step_ne_next_of_outcome ho
    · obtain ⟨u, hu, ho⟩ := exec_outcome_of_not_endsRun hi he s
      cases hu.symm.trans hx
      exact ⟨ho.trans hnone, htrun⟩

end Sys2Proof.Machine
end

section
/-!
The sum of two words by either reading of them, and the statement of 41_operate.md R133.
-/

namespace Sys2Proof.Machine

open Sys2Proof.Claims

/-- `writeResult` is what a flag setter does with its result, and its only effect. -/
theorem resultWritten_writeResult (s : State) (d : Reg) (v : Word) :
    ResultWritten d v s (s.writeResult d v) :=
  ⟨writeResult_reg_same s d v, (writeResult_cond s d v).trans (flagOf_signed v),
    fun _ h => writeResult_reg_other s v h, writeResult_pc s d v, writeResult_cell s d v,
    ⟨rfl, rfl, rfl, rfl, rfl, rfl, rfl, rfl⟩⟩

/-- The unsigned reading of the operands (R133). -/
theorem add_eq_ofNat (a b : Word) : a + b = BitVec.ofNat 16 ((a.toNat + b.toNat) % 65536) :=
  BitVec.eq_of_toNat_eq (by simp)

/-- The signed reading of the operands (R133). -/
theorem add_eq_ofInt (a b : Word) : a + b = BitVec.ofInt 16 (a.toInt + b.toInt) := by
  rw [BitVec.ofInt_add, BitVec.ofInt_toInt, BitVec.ofInt_toInt]

/-- The signed reading of the register operand, the immediate being signed in both (R133). -/
theorem add_sext_signed {n : Nat} (a : Word) (imm : BitVec n) :
    a + sext imm = BitVec.ofInt 16 (a.toInt + imm.toInt) :=
  (add_sext a imm).trans (ofInt_toNat_add a imm.toInt)

/-- Settles O6: each form ends in `writeResult`, whose effect is `resultWritten_writeResult`; its result
is the sum by both readings, or is read bit by bit. -/
theorem operateInstructionsWriteTheirResult : Obligations.OperateInstructionsWriteTheirResult := by
  refine ⟨fun s d a b => ⟨_, rfl, ?_, ?_⟩, fun s d a imm => ⟨_, rfl, ?_, ?_⟩,
    fun s d a b => ⟨_, _, rfl, resultWritten_writeResult s d _, fun k _ => ?_⟩,
    fun s d a imm => ⟨_, _, rfl, resultWritten_writeResult s d _, fun k hk => ?_⟩,
    fun s d a => ⟨_, _, rfl, resultWritten_writeResult s d _, fun k hk => ?_⟩⟩
  · rw [← add_eq_ofNat]
    exact resultWritten_writeResult s d _
  · rw [writeResult_reg_same, add_eq_ofInt]
  · rw [← add_sext]
    exact resultWritten_writeResult s d _
  · rw [writeResult_reg_same, add_sext_signed]
  · exact BitVec.getLsbD_and
  · rw [BitVec.getLsbD_and, getLsbD_sext imm k hk]
  · rw [BitVec.getLsbD_not, decide_eq_true hk, Bool.true_and]

end Sys2Proof.Machine
end

section
/-!
A vector that names no routine, and the statement of 44_trap.md R178.
-/

namespace Sys2Proof.Machine

/-- The bounds of 44_trap.md R171, read as the well-formedness of the TRAP term. -/
theorem trap_wf_iff (v : BitVec 8) :
    (Instr.trap v).wf = true ↔ v.toNat < 0x20 ∨ 0x25 < v.toNat := by
  simp [Instr.wf, vectorNamesNoRoutine]

/-- Settles O27: outside the bounds the TRAP is well-formed (`trap_wf_iff`), and then its dispatch
leaves the state as it is (`dispatch_of_wf`). -/
theorem otherTrapVectorsAreNoOps : Obligations.OtherTrapVectorsAreNoOps := by
  intro s v hv
  have hwf : (Instr.trap v).wf = true := (trap_wf_iff v).2 hv
  have hsame : s.dispatch v = s := dispatch_of_wf hwf s
  exact congrArg Host.Outcome.next hsame

end Sys2Proof.Machine
end

section
/-!
The fatal stop of RTI and RES, and the statement of 45_reserved.md R202.
-/

namespace Sys2Proof.Machine

/-- The exception is the last thing a run does: no step follows it (60_exceptions.md R210). -/
theorem step_raiseFatal_ne_next (s : State) (op : BitVec 4) (word : Word) (u : State) :
    step (s.raiseFatal op word) ≠ .next u :=
  step_ne_next_of_outcome (raiseFatal_outcome s op word) u

/-- Settles O43: both handlers raise FatalOpcode, which records the outcome (`raiseFatal_outcome`) and
is followed by no step (`step_raiseFatal_ne_next`). -/
theorem fatalStopIsAnOutcomeAndTheLastStep : Obligations.FatalStopIsAnOutcomeAndTheLastStep := by
  intro s i hi
  have hraise : ∃ op word, exec i s = .next (s.raiseFatal op word) := by
    rcases hi with ⟨low, rfl⟩ | ⟨low, rfl⟩
    · exact ⟨Opcode.rti.number, Opcode.rti.number ++ low, rfl⟩
    · exact ⟨Opcode.res.number, Opcode.res.number ++ low, rfl⟩
  obtain ⟨op, word, hx⟩ := hraise
  exact ⟨_, op, word, s.pc, hx, raiseFatal_outcome s op word, step_raiseFatal_ne_next s op word⟩

end Sys2Proof.Machine
end

section
/-!
The decoder and the encoder, each the other's inverse up to ignored bits, and the statements of
30_encoding.md R81, R94 and R95.
-/

namespace Sys2Proof

open Sys2Proof.Laws

/-! ### Decoding what was encoded -/

/-- The opcode that the decoder selects by. -/
theorem ofNumber_opcodeField_encode (i : Instr) :
    Opcode.ofNumber (opcodeField (encode i)) = opcodeOf i := by
  have h : opcodeField (encode i) = (opcodeOf i).number := by
    cases i
    case addReg => exact OpcodeOfEncoding.addReg ..
    case addImm => exact OpcodeOfEncoding.addImm ..
    case andReg => exact OpcodeOfEncoding.andReg ..
    case andImm => exact OpcodeOfEncoding.andImm ..
    case not => exact OpcodeOfEncoding.not ..
    case br => exact OpcodeOfEncoding.br ..
    case jmp => exact OpcodeOfEncoding.jmp ..
    case ret => exact OpcodeOfEncoding.ret
    case jsr => exact OpcodeOfEncoding.jsr ..
    case jsrr => exact OpcodeOfEncoding.jsrr ..
    case ld => exact OpcodeOfEncoding.ld ..
    case ldi => exact OpcodeOfEncoding.ldi ..
    case ldr => exact OpcodeOfEncoding.ldr ..
    case lea => exact OpcodeOfEncoding.lea ..
    case st => exact OpcodeOfEncoding.st ..
    case sti => exact OpcodeOfEncoding.sti ..
    case str => exact OpcodeOfEncoding.str ..
    case trap => exact OpcodeOfEncoding.trap ..
    case getc => exact OpcodeOfEncoding.getc
    case out => exact OpcodeOfEncoding.out
    case puts => exact OpcodeOfEncoding.puts
    case inp => exact OpcodeOfEncoding.inp
    case putsp => exact OpcodeOfEncoding.putsp
    case halt => exact OpcodeOfEncoding.halt
    case rti => exact OpcodeOfEncoding.rti ..
    case res => exact OpcodeOfEncoding.res ..
  rw [h, ofNumber_number]

theorem decodeJmp_of_wf {base : Reg} (h : (Instr.jmp base).wf = true) :
    decodeJmp base = .jmp base :=
  if_neg (by simpa [Instr.wf, jmpBaseIsNotR7] using h)

theorem decodeTrap_of_wf {v : BitVec 8} (h : (Instr.trap v).wf = true) : decodeTrap v = .trap v :=
  decodeTrap_of_none ((routineOf_eq_none v).2 h)

/-- The decoder reads no ignored bit: a word that has a well-formed instruction's fields, wherever they
carry none, decodes to it. -/
theorem decode_of_sameFields {i : Instr} (hi : i.wf = true) {w : Word}
    (h : ∀ lo n, (ignoredBits i).extractLsb' lo n = 0 →
      w.extractLsb' lo n = (encode i).extractLsb' lo n) : decode w = i := by
  have hop : Opcode.ofNumber (opcodeField w) = opcodeOf i := by
    rw [opcodeField, h 12 4 (by cases i <;> (simp only [ignoredBits]; decide))]
    exact ofNumber_opcodeField_encode i
  cases i <;> simp only [decode, hop, opcodeOf] <;> simp only [ignoredBits, encode] at h
  case addReg | addImm | andReg | andImm =>
    simp (disch := decide) [immFlag, drField, baseField, sr2Field, imm5Field, h, field_place_same,
      field_place_above, field_place_below]
  case not | br | ld | ldi | ldr | lea | st | sti | str | rti | res =>
    simp (disch := decide) [drField, baseField, nzpField, off9Field, off6Field, lowField, h,
      field_place_same, field_place_above, field_place_below]
  case jsr | jsrr =>
    simp (disch := decide) [baseField, longFlag, off11Field, h, field_place_same,
      field_place_above, field_place_below]
  case jmp base =>
    simp (disch := decide) [baseField, h, field_place_same, field_place_above,
      decodeJmp_of_wf hi]
  case ret =>
    simp (disch := decide) [baseField, h, field_place_same, field_place_above]
    rfl
  case trap v =>
    simp (disch := decide) [vectField, h, field_place_same, field_place_above, decodeTrap_of_wf hi]
  case getc | out | puts | inp | putsp | halt =>
    simp (disch := decide) [vectField, h, field_place_same, field_place_above, decodeTrap]

/-- Settles O1: an instruction's word has the instruction's fields. -/
theorem decodeUndoesEncode : Obligations.DecodeUndoesEncode :=
  fun _ hi => decode_of_sameFields hi fun _ _ _ => rfl

/-! ### Encoding what was decoded -/

/-- A field in its place is the word under the field's mask. -/
theorem place_field (w : Word) (lo n : Nat) :
    place lo (w.extractLsb' lo n) = w &&& place lo (BitVec.allOnes n) := by
  apply BitVec.eq_of_getLsbD_eq
  intro k hk
  rw [BitVec.getLsbD_and, getLsbD_place, getLsbD_place, BitVec.getLsbD_extractLsb',
    BitVec.getLsbD_allOnes]
  by_cases hlo : lo ≤ k
  · simp [hk, hlo, Bool.and_comm]
  · simp [hlo]

/-- A mask may be widened by bits that the word has not set. -/
theorem and_eq_of_clear {w b m m' : Word} (hb : w &&& b = 0) (hm : m' = m ||| b) :
    w &&& m = w &&& m' := by
  rw [hm, BitVec.and_or_distrib_left, hb]
  exact BitVec.or_zero.symm

/-- A one-bit field that is not 1 is 0, and so is its bit of the word. -/
theorem and_mask_of_ne_one {w : Word} {k : Nat} (h : ¬ (w.extractLsb' k 1 == 1#1) = true) :
    w &&& place k (BitVec.allOnes 1) = 0 := by
  have hz : w.extractLsb' k 1 = 0#1 := by
    have hbit : ∀ b : BitVec 1, ¬ (b == 1#1) = true → b = 0#1 := by decide
    exact hbit _ h
  rw [← place_field, hz]
  simp [place]

theorem encode_decodeJmp (base : Reg) :
    encode (decodeJmp base) = place 12 Opcode.jmp.number ||| place 6 base.toBits := by
  unfold decodeJmp
  split
  · subst base
    rfl
  · rfl

theorem ignoredBits_decodeJmp (base : Reg) : ignoredBits (decodeJmp base) = 0x0E3F := by
  unfold decodeJmp
  split <;> rfl

theorem encode_decodeTrap (v : BitVec 8) :
    encode (decodeTrap v) = place 12 Opcode.trap.number ||| place 0 v := by
  cases h : routineOf v with
  | none =>
    rw [decodeTrap_of_none h]
    rfl
  | some r =>
    rw [vector_of_routineOf h]
    cases r <;> rfl

theorem ignoredBits_decodeTrap (v : BitVec 8) : ignoredBits (decodeTrap v) = 0x0F00 := by
  unfold decodeTrap
  split <;> rfl

/-- The encoder writes back every field that the decoder read, and 0 for the ignored bits. -/
theorem encode_decode (w : Word) : encode (decode w) = w &&& ~~~ ignoredBits (decode w) := by
  have hop : (Opcode.ofNumber (opcodeField w)).number = w.extractLsb' 12 4 :=
    number_ofNumber (opcodeField w)
  cases ho : Opcode.ofNumber (opcodeField w) <;> simp only [decode, ho] <;> rw [ho] at hop
  case add | and =>
    split
    · rename_i hf
      simp only [encode, ignoredBits, hop, ← eq_of_beq hf, drField, baseField, imm5Field,
        toBits_ofBits, place_field, ← BitVec.and_or_distrib_left]
      exact congrArg (w &&& ·) (by decide)
    · rename_i hf
      simp only [encode, ignoredBits, hop, drField, baseField, sr2Field, toBits_ofBits, place_field,
        ← BitVec.and_or_distrib_left]
      exact and_eq_of_clear (and_mask_of_ne_one hf) (by decide)
  case jsr =>
    split
    · rename_i hf
      simp only [encode, ignoredBits, hop, ← eq_of_beq hf, off11Field, place_field,
        ← BitVec.and_or_distrib_left]
      exact congrArg (w &&& ·) (by decide)
    · rename_i hf
      simp only [encode, ignoredBits, hop, baseField, toBits_ofBits, place_field,
        ← BitVec.and_or_distrib_left]
      exact and_eq_of_clear (and_mask_of_ne_one hf) (by decide)
  case jmp =>
    rw [encode_decodeJmp, ignoredBits_decodeJmp, hop, baseField, toBits_ofBits, place_field,
      place_field, ← BitVec.and_or_distrib_left]
    exact congrArg (w &&& ·) (by decide)
  case trap =>
    rw [encode_decodeTrap, ignoredBits_decodeTrap, hop, vectField, place_field, place_field,
      ← BitVec.and_or_distrib_left]
    exact congrArg (w &&& ·) (by decide)
  case br | ld | st | ldr | str | rti | not | ldi | sti | res | lea =>
    simp only [encode, ignoredBits, hop, drField, baseField, nzpField, off6Field, off9Field,
      lowField, toBits_ofBits, place_field, ← BitVec.and_or_distrib_left]
    exact congrArg (w &&& ·) (by decide)

/-- Settles O2: `decode_wf`, and `encode_decode` field by field. -/
theorem everyWordIsItsInstructionLessIgnoredBits :
    Obligations.EveryWordIsItsInstructionLessIgnoredBits :=
  fun w => ⟨decode_wf w, encode_decode w⟩

/-! ### Words that differ in ignored bits -/

/-- Clearing the bits of a mask leaves a field that lies outside it. -/
theorem field_and_not (v m : Word) {lo n : Nat} (h : m.extractLsb' lo n = 0) :
    (v &&& ~~~ m).extractLsb' lo n = v.extractLsb' lo n := by
  apply BitVec.eq_of_getLsbD_eq
  intro k hk
  have hm : m.getLsbD (lo + k) = false := by
    simpa [hk] using congrArg (fun x => x.getLsbD k) h
  simp only [BitVec.getLsbD_extractLsb', BitVec.getLsbD_and, BitVec.getLsbD_not, hm]
  by_cases h16 : lo + k < 16
  · simp [h16]
  · simp [BitVec.getLsbD_of_ge v (lo + k) (by omega)]

/-- Settles O3: by `encode_decode` both words have, outside the ignored bits, the fields of the
instruction's word. -/
theorem ignoredBitsChangeNothing : Obligations.IgnoredBitsChangeNothing := by
  intro w v hwv
  refine decode_of_sameFields (decode_wf w) fun lo n hm => ?_
  rw [encode_decode w, hwv, field_and_not v _ hm]

/-- Settles O4: each example word decoded. -/
theorem specExampleWordsDecode : Obligations.SpecExampleWordsDecode := by
  unfold Obligations.SpecExampleWordsDecode
  decide

end Sys2Proof
end

section
/-!
Canonical memories that read the same are the same, a read of memory is what the statements call one
and no other, and the statements of 43_load_store.md about loads and stores.
-/

namespace Sys2Proof.Machine

open Sys2Proof.Claims

/-! ### Canonical memories (20_memory.md R50) -/

/-- The members of a canonical memory are the cells that do not read 0. -/
theorem mem_iff_read {m : Memory} (h : Memory.wf m) (a : Nat) (v : Word) :
    (a, v) ∈ m ↔ Memory.read m a = v ∧ v ≠ 0 := by
  induction m with
  | nil =>
    have hzero : ¬ ((0 : Word) = v ∧ v ≠ 0) := fun ⟨e, hv⟩ => hv e.symm
    exact iff_of_false List.not_mem_nil hzero
  | cons d m ih =>
    obtain ⟨hd, ⟨-, hv⟩, hm⟩ := wf_cons.1 h
    rw [List.mem_cons, ih hm, read_cons]
    by_cases ha : a = d.1
    · have habove : Memory.read m a = 0 := read_of_above (ha ▸ hd)
      rw [if_pos ha, habove]
      constructor
      · rintro (rfl | ⟨rfl, hz⟩)
        · exact ⟨rfl, hv⟩
        · exact absurd rfl hz
      · rintro ⟨rfl, -⟩
        exact .inl (Prod.ext ha rfl)
    · rw [if_neg ha]
      exact or_iff_right fun e => ha (congrArg Prod.fst e)

/-- Two canonical memories in which every address reads the same are the same list: they have the same
members, in address order. -/
theorem eq_of_read_eq {m m' : Memory} (h : Memory.wf m) (h' : Memory.wf m')
    (hr : ∀ a, a < 65536 → Memory.read m' a = Memory.read m a) : m' = m := by
  have hirrefl : Std.Irrefl fun c d : Nat × Word => c.1 < d.1 := ⟨fun c => Nat.lt_irrefl c.1⟩
  have hanti : Std.Antisymm fun c d : Nat × Word => c.1 < d.1 :=
    ⟨fun c d hcd hdc => absurd hcd (Nat.lt_asymm hdc)⟩
  refine h'.1.eq_of_mem_iff h.1 fun ⟨a, v⟩ => ?_
  by_cases ha : a < 65536
  · rw [mem_iff_read h', mem_iff_read h, hr a ha]
  · exact iff_of_false (fun hc => ha (h'.2 _ hc).1) (fun hc => ha (h.2 _ hc).1)

/-- Settles O24: `eq_of_read_eq`, the addresses being the numbers below 65536. -/
theorem canonicalMemoriesWithEqualCellsAreEqual :
    Obligations.CanonicalMemoriesWithEqualCellsAreEqual :=
  fun _ _ hs ht hc => eq_of_read_eq hs ht fun a ha => by
    simpa [State.cell, Nat.mod_eq_of_lt ha] using hc (BitVec.ofNat 16 a)

/-! ### The read of the statements -/

/-- States that agree in every field, registers and cells by what they read, are equal. -/
theorem state_eq {s t : State} (hs : Memory.wf s.mem) (ht : Memory.wf t.mem) (hf : PollFrame s t)
    (hcell : ∀ a, t.cell a = s.cell a) (hin : t.input = s.input) (hcons : t.consumed = s.consumed) :
    t = s := by
  have hregs : t.regs = s.regs := Vector.ext fun k hk => hf.regs ⟨k, hk⟩
  have hmem : t.mem = s.mem := canonicalMemoriesWithEqualCellsAreEqual s t hs ht hcell
  obtain ⟨-, hpc, hcond, heng, hout, hact, houtput, hcancel, hhost⟩ := hf
  cases s
  cases t
  simp_all

/-- What a poll does with the first byte available (20_memory.md R56, D6). -/
theorem poll_kbdr {s : State} (h : Memory.wf s.mem) {b : Byte} {rest : List Byte}
    (hi : s.input = b :: rest) : s.poll.cell kbdrAddr = zext16 b := by
  rw [poll_cons hi, cell_setCell_other _ _ (by decide)]
  exact cell_setCell_same (by exact h) _ _

theorem poll_input_cons {s : State} {b : Byte} {rest : List Byte} (h : s.input = b :: rest) :
    s.poll.input = rest := by
  rw [poll_cons h]
  rfl

theorem poll_consumed_cons {s : State} {b : Byte} {rest : List Byte} (h : s.input = b :: rest) :
    s.poll.consumed = s.consumed ++ [b] := by
  rw [poll_cons h]
  rfl

/-- `memRead` is a read of memory. -/
theorem readOf_memRead {s : State} (h : Memory.wf s.mem) (a : Word) :
    ReadOf s a (s.memRead a).1 (s.memRead a).2 := by
  have hframe := pollFrame_memRead s a
  by_cases ha : a = kbsrAddr
  · subst ha
    rw [memRead_kbsr] at *
    cases hi : s.input with
    | nil =>
      have hk : s.poll.cell kbsrAddr = 0 := by rw [poll_kbsr h, if_pos hi]
      refine .inr (.inl ⟨rfl, hi, hk, hk, ?_, ?_, ?_, hframe⟩) <;> rw [poll_nil hi]
      · exact fun b hb => cell_setCell_other s 0 hb
      · exact hi
      · rfl
    | cons c rest =>
      have hk : s.poll.cell kbsrAddr = 0x8000 := by rw [poll_kbsr h, if_neg (by simp [hi])]; rfl
      exact .inr (.inr ⟨rfl, c, rest, hi, hk, hk, by rw [poll_kbdr h hi, toNat_zext16],
        fun b h1 h2 => poll_cell_other s h1 h2, poll_input_cons hi, poll_consumed_cons hi, hframe⟩)
  · rw [memRead_other s ha]
    exact .inl ⟨ha, rfl, rfl⟩

theorem pollFrame_symm {s t : State} (h : PollFrame s t) : PollFrame t s where
  regs r := (h.regs r).symm
  pc := h.pc.symm
  cond := h.cond.symm
  engine := h.engine.symm
  outcome := h.outcome.symm
  activity := h.activity.symm
  output := h.output.symm
  cancelRequested := h.cancelRequested.symm
  host := h.host.symm

/-- Two reads of one address in one state give the same word and leave the same state. -/
theorem readOf_unique {s u u' : State} {a v v' : Word} (hu : Memory.wf u.mem)
    (hu' : Memory.wf u'.mem) (h : ReadOf s a v u) (h' : ReadOf s a v' u') : v' = v ∧ u' = u := by
  rcases h with ⟨hne, rfl, rfl⟩ | ⟨rfl, hi, rfl, hk, hc, hin, hcons, hf⟩ |
    ⟨rfl, c, rest, hi, rfl, hk, hd, hc, hin, hcons, hf⟩
  · rcases h' with ⟨-, rfl, rfl⟩ | ⟨ha, -⟩ | ⟨ha, -⟩
    · exact ⟨rfl, rfl⟩
    · exact absurd ha hne
    · exact absurd ha hne
  · rcases h' with ⟨hne, -⟩ | ⟨-, -, rfl, hk', hc', hin', hcons', hf'⟩ | ⟨-, c, rest, hi', -⟩
    · exact absurd rfl hne
    · refine ⟨rfl, state_eq hu hu' (pollFrame_trans (pollFrame_symm hf) hf') (fun b => ?_)
        (hin'.trans hin.symm) (hcons'.trans hcons.symm)⟩
      by_cases hb : b = kbsrAddr
      · rw [hb, hk', hk]
      · rw [hc' b hb, hc b hb]
    · exact nomatch hi.symm.trans hi'
  · rcases h' with ⟨hne, -⟩ | ⟨-, hi', -⟩ | ⟨-, c', rest', hi', rfl, hk', hd', hc', hin', hcons', hf'⟩
    · exact absurd rfl hne
    · exact nomatch hi.symm.trans hi'
    · obtain ⟨rfl, rfl⟩ : c = c' ∧ rest = rest' := by simpa using hi.symm.trans hi'
      refine ⟨rfl, state_eq hu hu' (pollFrame_trans (pollFrame_symm hf) hf') (fun b => ?_)
        (hin'.trans hin.symm) (hcons'.trans hcons.symm)⟩
      by_cases hb : b = kbsrAddr
      · rw [hb, hk', hk]
      by_cases hb' : b = kbdrAddr
      · rw [hb']
        exact BitVec.eq_of_toNat_eq (hd'.trans hd.symm)
      · rw [hc' b hb hb', hc b hb hb']

/-- A read of the statements is a `memRead`. -/
theorem memRead_of_readOf {s u : State} {a v : Word} (hs : Memory.wf s.mem) (hu : Memory.wf u.mem)
    (h : ReadOf s a v u) : s.memRead a = (v, u) := by
  obtain ⟨hv, hu'⟩ := readOf_unique hu (memRead_wf hs a) h (readOf_memRead hs a)
  exact Prod.ext hv hu'

/-- Settles O21: the read of KBSR is a `memRead` at its address. -/
theorem kbsrReadsPollTheKeyboard : Obligations.KbsrReadsPollTheKeyboard :=
  fun _ h => readOf_memRead h kbsrAddr

/-! ### Loads (43_load_store.md) -/

theorem pcRelative_eq_target {n : Nat} (s : State) (off : BitVec n) :
    s.pcRelative off = target s.pc off := add_sext s.pc off

theorem basePlus_eq_target (s : State) (base : Reg) (off : BitVec 6) :
    s.basePlus base off = target (s.reg base) off := add_sext (s.reg base) off

/-- A load reads the word at its address and writes it as a result. -/
theorem resultWritten_loadTo (s : State) (d : Reg) (a : Word) :
    ResultWritten d (s.memRead a).1 (s.memRead a).2 (s.loadTo d a) :=
  resultWritten_writeResult _ d _

/-- Settles O14: both handlers are `loadTo` at their computed address. -/
theorem loadsWriteTheWordRead : Obligations.LoadsWriteTheWordRead := by
  refine fun s h => ⟨fun d off => ⟨_, _, s.loadTo d (target s.pc off), readOf_memRead h _, ?_,
    resultWritten_loadTo s d _⟩, fun d base off => ⟨_, _, s.loadTo d (target (s.reg base) off),
    readOf_memRead h _, ?_, resultWritten_loadTo s d _⟩⟩
  · rw [← pcRelative_eq_target]
    rfl
  · rw [← basePlus_eq_target]
    rfl

/-- Settles O15: the pointer is one `memRead`, and `loadTo` makes the other in the state it leaves. -/
theorem ldiReadsThePointerThenTheValue : Obligations.LdiReadsThePointerThenTheValue := by
  intro s d off h
  rw [← pcRelative_eq_target]
  have hpointer := readOf_memRead h (s.pcRelative off)
  have hwf := memRead_wf h (s.pcRelative off)
  exact ⟨_, _, _, _, _, hpointer, readOf_memRead hwf _, rfl, resultWritten_loadTo _ d _⟩

/-- Settles O16: LEA writes its address as a result and reads nothing. -/
theorem leaWritesItsAddress : Obligations.LeaWritesItsAddress := by
  intro s d off
  rw [← pcRelative_eq_target]
  exact ⟨_, rfl, resultWritten_writeResult s d _⟩

/-! ### Stores (43_load_store.md) -/

/-- Settles O17: both handlers are one `memWrite` at their computed address. -/
theorem storesWriteOneCell : Obligations.StoresWriteOneCell := by
  refine fun s h => ⟨fun r off => ?_, fun r base off => ?_⟩
  · rw [← pcRelative_eq_target]
    exact ⟨_, rfl, stored_memWrite h _ _⟩
  · rw [← basePlus_eq_target]
    exact ⟨_, rfl, stored_memWrite h _ _⟩

/-- Settles O18: the pointer is one `memRead`, which leaves the source register alone, and the store is
a `memWrite` at it. -/
theorem stiStoresThroughItsPointer : Obligations.StiStoresThroughItsPointer := by
  intro s r off h
  rw [← pcRelative_eq_target]
  have hpointer := readOf_memRead h (s.pcRelative off)
  have hreg : (s.memRead (s.pcRelative off)).2.reg r = s.reg r := reg_congr (memRead_regs s _) r
  refine ⟨_, _, _, hpointer, rfl, ?_⟩
  rw [← hreg]
  exact stored_memWrite (memRead_wf h _) _ _

/-- A fetch from a cell that was just stored reads the word stored, unless it polls. -/
theorem fetch_memWrite {s : State} (h : Memory.wf s.mem) {a v : Word} (ha : a = s.pc)
    (hpc : s.pc ≠ kbsrAddr) : (s.memWrite a v).fetch.1 = v := by
  subst ha
  exact (memRead_fst_other (s.memWrite s.pc v) hpc).trans (cell_setCell_same h s.pc v)

/-- Settles O22: `fetch_memWrite` for each of the three stores; STI's pointer is read first. -/
theorem storeIsSeenByTheNextFetch : Obligations.StoreIsSeenByTheNextFetch := by
  refine fun s r h hpc => ⟨fun off ha => ?_, fun base off ha => ?_, fun off ha => ?_⟩
  · rw [← pcRelative_eq_target] at ha
    exact ⟨_, rfl, fetch_memWrite h ha hpc⟩
  · rw [← basePlus_eq_target] at ha
    exact ⟨_, rfl, fetch_memWrite h ha hpc⟩
  · rw [← pcRelative_eq_target] at ha
    have hpc' : (s.memRead (s.pcRelative off)).2.pc = s.pc := memRead_pc s _
    have hreg : (s.memRead (s.pcRelative off)).2.reg r = s.reg r := reg_congr (memRead_regs s _) r
    refine ⟨_, rfl, ?_⟩
    rw [← hreg]
    exact fetch_memWrite (memRead_wf h _) (ha.trans hpc'.symm) (hpc'.symm ▸ hpc)

/-- Settles O25: a read of the register written and of another one. -/
theorem registersHoldTheLastValueWritten : Obligations.RegistersHoldTheLastValueWritten := by
  intro s r q v
  split
  · subst q
    exact reg_setReg_same s r v
  · exact reg_setReg_other s v ‹_›

end Sys2Proof.Machine
end

section
/-!
Control transfer, who reads and writes COND, and the statements of 42_control.md and of 10_state.md
R27.
-/

namespace Sys2Proof.Machine

open Sys2Proof.Claims

/-! ### Control transfer (42_control.md) -/

theorem jumpedTo_setPc (s : State) (a : Word) : JumpedTo a s (s.setPc a) :=
  ⟨rfl, fun _ => rfl, rfl, fun _ => rfl, ⟨rfl, rfl, rfl, rfl, rfl, rfl, rfl, rfl⟩⟩

/-- The branch test reads bit by bit (R140, R24). -/
theorem branchTaken_eq (s : State) (nzp : BitVec 3) : s.branchTaken nzp =
    ((nzp.getLsbD 2 && s.cond.getLsbD 2) || (nzp.getLsbD 1 && s.cond.getLsbD 1) ||
      (nzp.getLsbD 0 && s.cond.getLsbD 0)) := by
  have hbits : ∀ m c : BitVec 3, (m &&& c != 0) = ((m.getLsbD 2 && c.getLsbD 2) ||
      (m.getLsbD 1 && c.getLsbD 1) || (m.getLsbD 0 && c.getLsbD 0)) := by decide
  exact hbits nzp s.cond

/-- Settles O9: the branch test by `branchTaken_eq`, and BR sets the PC or does nothing. -/
theorem branchTakenWhenMaskMeetsFlag : Obligations.BranchTakenWhenMaskMeetsFlag := by
  intro s nzp off
  refine ⟨_, rfl, ?_⟩
  rw [← branchTaken_eq, ← pcRelative_eq_target]
  split
  · exact jumpedTo_setPc s _
  · exact jumpedTo_setPc s s.pc

/-- Settles O10: both handlers are one `setPc`. -/
theorem jumpsGoToTheirRegister : Obligations.JumpsGoToTheirRegister :=
  ⟨fun s _ => ⟨_, rfl, jumpedTo_setPc s _⟩, fun s => ⟨_, rfl, jumpedTo_setPc s _⟩⟩

/-- The link and the jump of JSR and JSRR (R142, R143). -/
theorem linkedTo_saveReturn (s : State) (a : Word) : LinkedTo a s (s.saveReturn.setPc a) :=
  ⟨reg_setReg_same s linkReg s.pc, rfl, fun _ h => reg_setReg_other s s.pc h, rfl, fun _ => rfl,
    ⟨rfl, rfl, rfl, rfl, rfl, rfl, rfl, rfl⟩⟩

/-- Settles O11: `linkedTo_saveReturn` at the PC-relative target. -/
theorem jsrLinksAndJumps : Obligations.JsrLinksAndJumps := by
  intro s off
  rw [← pcRelative_eq_target]
  exact ⟨_, rfl, linkedTo_saveReturn s _⟩

/-- Settles O12: `linkedTo_saveReturn` at the base register's value after the link. -/
theorem jsrrReadsItsBaseAfterLinking : Obligations.JsrrReadsItsBaseAfterLinking := by
  intro s base
  have hbase : s.saveReturn.reg base = if base = 7 then s.pc else s.reg base :=
    registersHoldTheLastValueWritten s linkReg base s.pc
  rw [← hbase]
  exact ⟨_, rfl, linkedTo_saveReturn s _⟩

/-! ### Operations under another COND (10_state.md R27) -/

/-- The state with another COND. -/
def State.withCond (s : State) (c : BitVec 3) : State := { s with cond := c }

/-- A result overwrites COND, whatever it held. -/
theorem writeResult_withCond (s : State) (c : BitVec 3) (d : Reg) (v : Word) :
    (s.withCond c).writeResult d v = s.writeResult d v := by
  rw [writeResult_eq, writeResult_eq]
  rfl

theorem poll_withCond (s : State) (c : BitVec 3) : (s.withCond c).poll = s.poll.withCond c := by
  cases hi : s.input with
  | nil =>
    rw [poll_nil hi, poll_nil (s := s.withCond c) hi]
    rfl
  | cons b rest =>
    rw [poll_cons hi, poll_cons (s := s.withCond c) hi]
    rfl

theorem memRead_withCond (s : State) (c : BitVec 3) (a : Word) :
    (s.withCond c).memRead a = ((s.memRead a).1, (s.memRead a).2.withCond c) := by
  by_cases ha : a = kbsrAddr
  · rw [ha, memRead_kbsr, memRead_kbsr, poll_withCond]
    rfl
  · rw [memRead_other _ ha, memRead_other _ ha]
    rfl

theorem loadTo_withCond (s : State) (c : BitVec 3) (d : Reg) (a : Word) :
    (s.withCond c).loadTo d a = s.loadTo d a := by
  simp only [State.loadTo, memRead_withCond, writeResult_withCond]

theorem getcRead_withCond (s : State) (c : BitVec 3) :
    (s.withCond c).getcRead = s.getcRead.withCond c := by
  cases hi : s.input with
  | nil =>
    rw [getcRead_nil hi, getcRead_nil (s := s.withCond c) hi]
    rfl
  | cons b rest =>
    rw [getcRead_cons hi, getcRead_cons (s := s.withCond c) hi]
    rfl

theorem inRead_withCond (s : State) (c : BitVec 3) :
    (s.withCond c).inRead = s.inRead.withCond c := by
  cases hi : s.input with
  | nil =>
    rw [inRead_nil hi, inRead_nil (s := s.withCond c) hi]
    rfl
  | cons b rest =>
    rw [inRead_cons hi, inRead_cons (s := s.withCond c) hi]
    rfl

theorem scan_withCond (bytes : Word → List Byte) (more : Word → Activity) (n : Nat) (a : Word)
    (s : State) (c : BitVec 3) :
    State.scan bytes more n a (s.withCond c) = (State.scan bytes more n a s).withCond c := by
  induction n generalizing a s with
  | zero => rfl
  | succ n ih =>
    have hr := memRead_withCond s c a
    by_cases hz : (s.memRead a).1 = 0
    · rw [scan_stop _ _ _ hz, scan_stop _ _ _ (by rw [hr]; exact hz), hr]
      rfl
    · rw [scan_go _ _ _ hz, scan_go _ _ _ (by rw [hr]; exact hz), hr, ← ih]
      rfl

/-- No routine of the dispatcher reads COND, whatever the vector. -/
theorem dispatch_withCond (s : State) (c : BitVec 3) (v : BitVec 8) :
    (s.withCond c).dispatch v = (s.dispatch v).withCond c := by
  unfold State.dispatch
  split
  · exact getcRead_withCond s c
  · rfl
  · exact scan_withCond _ _ _ _ s c
  · exact inRead_withCond (s.emit Config.inPrompt) c
  · exact scan_withCond _ _ _ _ s c
  · rfl
  · rfl

/-! ### What a step resumes, by the activity (log 6) -/

theorem resume_boundary {s : State} (h : s.activity = .boundary) : s.resume = s := by
  simp only [State.resume, h]

theorem resume_getcRead {s : State} (h : s.activity = .getcRead) :
    s.resume = if s.cancelRequested && !s.pollReady then s.takeCancel else s.getcRead := by
  simp only [State.resume, h]

theorem resume_inRead {s : State} (h : s.activity = .inRead) :
    s.resume = if s.cancelRequested && !s.pollReady then s.takeCancel else s.inRead := by
  simp only [State.resume, h]

theorem resume_putsScan {s : State} {a : Word} (h : s.activity = .putsScan a) :
    s.resume = s.putsFrom a := by
  simp only [State.resume, h]

theorem resume_putspScan {s : State} {a : Word} (h : s.activity = .putspScan a) :
    s.resume = s.putspFrom a := by
  simp only [State.resume, h]

/-- Everything that a step can resume to. -/
theorem resume_cases (s : State) : s.resume = s ∨ s.resume = s.takeCancel ∨
    s.resume = s.getcRead ∨ s.resume = s.inRead ∨
    (∃ a, s.resume = s.putsFrom a) ∨ ∃ a, s.resume = s.putspFrom a := by
  cases h : s.activity with
  | boundary => exact .inl (resume_boundary h)
  | getcRead =>
    rw [resume_getcRead h]
    split
    · exact .inr (.inl rfl)
    · exact .inr (.inr (.inl rfl))
  | inRead =>
    rw [resume_inRead h]
    split
    · exact .inr (.inl rfl)
    · exact .inr (.inr (.inr (.inl rfl)))
  | putsScan a => exact .inr (.inr (.inr (.inr (.inl ⟨a, resume_putsScan h⟩))))
  | putspScan a => exact .inr (.inr (.inr (.inr (.inr ⟨a, resume_putspScan h⟩))))

/-- What a step resumes does not read COND. -/
theorem resume_withCond (s : State) (c : BitVec 3) :
    (s.withCond c).resume = s.resume.withCond c := by
  cases h : s.activity with
  | boundary => rw [resume_boundary h, resume_boundary (s := s.withCond c) h]
  | getcRead =>
    rw [resume_getcRead h, resume_getcRead (s := s.withCond c) h, getcRead_withCond]
    by_cases hc : (s.cancelRequested && !s.pollReady) = true
    · rw [if_pos hc]
      exact if_pos hc
    · rw [if_neg hc]
      exact if_neg hc
  | inRead =>
    rw [resume_inRead h, resume_inRead (s := s.withCond c) h, inRead_withCond]
    by_cases hc : (s.cancelRequested && !s.pollReady) = true
    · rw [if_pos hc]
      exact if_pos hc
    · rw [if_neg hc]
      exact if_neg hc
  | putsScan a =>
    rw [resume_putsScan h, resume_putsScan (s := s.withCond c) h]
    exact scan_withCond _ _ _ _ s c
  | putspScan a =>
    rw [resume_putspScan h, resume_putspScan (s := s.withCond c) h]
    exact scan_withCond _ _ _ _ s c

/-! ### Handlers and COND (10_state.md R27) -/

/-- A flag setter does not read COND, and overwrites it. -/
theorem exec_withCond_of_dest {i : Instr} {d : Reg} (h : destOf i = some d) (s : State)
    (c : BitVec 3) : exec i (s.withCond c) = exec i s := by
  cases i <;> cases h
  case addReg | addImm | andReg | andImm | not | lea =>
    exact congrArg Host.Outcome.next (writeResult_withCond s c d _)
  case ld | ldr => exact congrArg Host.Outcome.next (loadTo_withCond s c d _)
  case ldi off =>
    have hpointer : (s.withCond c).indirect off =
        ((s.indirect off).1, (s.indirect off).2.withCond c) := memRead_withCond s c _
    simp only [exec, execLdi, hpointer, loadTo_withCond]

/-- A handler that is neither a flag setter's nor BR's does not read COND, and passes it on. -/
theorem exec_withCond_of_no_dest {i : Instr} (h : destOf i = none) (hbr : ∀ nzp off, i ≠ .br nzp off)
    (s : State) : ∃ t, exec i s = .next t ∧ ∀ c, exec i (s.withCond c) = .next (t.withCond c) := by
  cases i <;> cases h
  case br nzp off => exact absurd rfl (hbr nzp off)
  case jmp | ret | jsr | jsrr | st | str | out | halt | rti | res => exact ⟨_, rfl, fun _ => rfl⟩
  case sti r off =>
    refine ⟨_, rfl, fun c => ?_⟩
    have hpointer : (s.withCond c).indirect off =
        ((s.indirect off).1, (s.indirect off).2.withCond c) := memRead_withCond s c _
    simp only [exec, execSti, hpointer]
    rfl
  case trap v => exact ⟨_, rfl, fun c => congrArg Host.Outcome.next (dispatch_withCond s c v)⟩
  case getc => exact ⟨_, rfl, fun c => congrArg Host.Outcome.next (getcRead_withCond s c)⟩
  case inp =>
    exact ⟨_, rfl, fun c => congrArg Host.Outcome.next (inRead_withCond (s.emit Config.inPrompt) c)⟩
  case puts | putsp =>
    exact ⟨_, rfl, fun c => congrArg Host.Outcome.next (scan_withCond _ _ _ _ s c)⟩

/-- A state that is the same under the COND of `s` has that COND. -/
theorem cond_of_eq_withCond {s t : State} (h : t = t.withCond s.cond) : t.cond = s.cond :=
  (congrArg State.cond h).trans rfl

/-- Such a handler leaves COND alone. -/
theorem exec_cond_of_no_dest {i : Instr} (h : destOf i = none) (s : State) :
    ∃ t, exec i s = .next t ∧ t.cond = s.cond := by
  by_cases hbr : ∃ nzp off, i = .br nzp off
  · obtain ⟨nzp, off, rfl⟩ := hbr
    exact ⟨_, rfl, by split <;> rfl⟩
  · obtain ⟨t, hx, hc⟩ := exec_withCond_of_no_dest h (fun nzp off e => hbr ⟨nzp, off, e⟩) s
    have hsame : exec i s = .next (t.withCond s.cond) := hc s.cond
    exact ⟨t, hx, cond_of_eq_withCond (Host.Outcome.next.inj (hx.symm.trans hsame))⟩

theorem resume_cond (s : State) : s.resume.cond = s.cond :=
  cond_of_eq_withCond (resume_withCond s s.cond)

/-- Settles O8: `exec_withCond_of_dest` for the flag setters, `exec_withCond_of_no_dest` for the others
but BR. -/
theorem onlyBranchesReadCond : Obligations.OnlyBranchesReadCond := by
  intro i s c hbr
  match hd : destOf i with
  | some d =>
    obtain ⟨u, v, hx, -⟩ := exec_of_destOf hd s
    refine ⟨_, hx, fun h => absurd h (by simp), fun _ => ?_⟩
    exact (exec_withCond_of_dest hd s c).trans hx
  | none =>
    obtain ⟨t, hx, hc⟩ := exec_withCond_of_no_dest hd hbr s
    obtain ⟨u, hu, hcond⟩ := exec_cond_of_no_dest hd s
    cases hu.symm.trans hx
    exact ⟨t, hx, fun _ => ⟨hcond, hc c⟩, fun h => absurd rfl h⟩

end Sys2Proof.Machine
end

section
/-!
What a step is, case by case, and the statements of 40_cycle.md R120, 45_reserved.md and
60_exceptions.md about steps, the host's turn and the ends of a run.
-/

namespace Sys2Proof.Machine

open Sys2Proof.Claims

/-! ### Steps by the activity (40_cycle.md R120; log 6, 8) -/

/-- A cancellation pending at a boundary is taken (60_exceptions.md R215). -/
theorem step_of_cancel {s : State} (hs : MayStep s) (hb : s.activity = .boundary)
    (hc : s.hostActs.cancelRequested = true) : step s = .next s.hostActs.takeCancel := by
  have he : s.ended = none := (ended_eq_none s).2 hs
  simp only [step, he, hostActs_activity, hb, stepAtBoundary, hc, if_true]

/-- Inside a routine a step resumes it. -/
theorem step_of_routine {s : State} (hs : MayStep s) (hb : s.activity ≠ .boundary) :
    step s = .next s.hostActs.resume := by
  have he : s.ended = none := (ended_eq_none s).2 hs
  unfold step
  rw [he]
  cases ha : s.activity with
  | boundary => exact absurd ha hb
  | getcRead | inRead | putsScan | putspScan => simp only [hostActs_activity, ha]

/-- Settles O40: `step_of_cancel`; the routine that `takeCancel` abandons is none. -/
theorem cancellationIsTakenBeforeTheFetch : Obligations.CancellationIsTakenBeforeTheFetch := by
  intro s hs hb hc
  have htake : s.hostActs.takeCancel = { s.hostActs with outcome := some .cancelled } := by
    rw [State.takeCancel, ← hb]
    rfl
  rw [step_of_cancel hs hb hc, htake]

/-- Settles O48: the fetch is the read at the PC and the increment, and away from KBSR the read is the
cell. -/
theorem stepRunsTheDecodedInstruction : Obligations.StepRunsTheDecodedInstruction := by
  intro s i hs hb hc
  refine ⟨fun hi => ?_, fun hpc hi => ?_⟩
  · rw [step_of_boundary hs hb hc, ← hi]
    rfl
  · have hfetch : s.hostActs.fetch = (s.cell s.pc, { s.hostActs with pc := s.pc + 1 }) :=
      fetch_other (s := s.hostActs) hpc
    rw [step_of_boundary hs hb hc, hfetch, hi]

/-- Settles O47: `exec_of_destOf` and `exec_cond_of_no_dest` have no hypothesis on the state or the
operands. -/
theorem everyInstructionAnswersANextState : Obligations.EveryInstructionAnswersANextState := by
  intro i s
  match hd : destOf i with
  | some d =>
    obtain ⟨u, v, hx, -⟩ := exec_of_destOf hd s
    exact ⟨_, hx⟩
  | none =>
    obtain ⟨t, hx, -⟩ := exec_cond_of_no_dest hd s
    exact ⟨t, hx⟩

/-- A step that may be taken answers a next state. -/
theorem step_next_of_mayStep {s : State} (hs : MayStep s) : ∃ t, step s = .next t := by
  by_cases hb : s.activity = .boundary
  · cases hc : s.hostActs.cancelRequested with
    | true => exact ⟨_, step_of_cancel hs hb hc⟩
    | false =>
      obtain ⟨t, hx⟩ := everyInstructionAnswersANextState (decode s.hostActs.fetch.1)
        s.hostActs.fetch.2
      exact ⟨t, (step_of_boundary hs hb hc).trans hx⟩
  · exact ⟨_, step_of_routine hs hb⟩

/-- The outcome that a step from an ended run answers. -/
theorem ended_of_outcome {s : State} {o : RunOutcome} (h : s.outcome = some o) :
    s.ended = some o := by
  simp only [State.ended, h]

/-- Settles O46: `step_of_ended` where the run has ended and `step_next_of_mayStep` where it has not. -/
theorem stepFaultsExactlyWhenTheRunHasEnded : Obligations.StepFaultsExactlyWhenTheRunHasEnded := by
  refine fun s => ⟨fun o ho => step_of_ended (ended_of_outcome ho), fun ho he => ?_,
    step_next_of_mayStep, fun r hr => ?_⟩
  · have hended : s.ended = some .halted := by simp only [State.ended, ho, he, if_true]
    exact step_of_ended hended
  · match he : s.ended with
    | some o => exact nomatch (step_of_ended he).symm.trans hr
    | none =>
      obtain ⟨t, ht⟩ := step_next_of_mayStep ((ended_eq_none s).1 he)
      exact nomatch ht.symm.trans hr

/-! ### The host's turn (60_exceptions.md R226) -/

/-- Settles O41: the turn's bytes and request by the four forms of the schedule. -/
theorem hostTurnQueuesBytesAndRequests : Obligations.HostTurnQueuesBytesAndRequests := by
  refine ⟨fun s h => ?_, fun s slot rest later h => ?_, fun s n h => ?_⟩
  · simp only [State.hostActs, h, next_idle, List.append_nil, Bool.or_false]
    rw [← h]
  · rcases h with h | ⟨h, rfl⟩
    · simp only [State.hostActs, h, next_coming]
    · simp only [State.hostActs, h, next_cycle]
  · refine ⟨Config.hostBytes n, Config.hostCancels n, ?_⟩
    simp only [State.hostActs, h, next_unknown]

/-! ### Reserved opcodes (45_reserved.md) -/

/-- An opcode and the 12 bits below it, as a number. -/
theorem append_eq_ofNat (op : BitVec 4) (low : BitVec 12) :
    (op ++ low : Word) = BitVec.ofNat 16 (op.toNat * 4096 + low.toNat) := by
  apply BitVec.eq_of_toNat_eq
  rw [BitVec.toNat_append, ← Nat.shiftLeft_add_eq_or_of_lt low.isLt, Nat.shiftLeft_eq,
    BitVec.toNat_ofNat, Nat.mod_eq_of_lt (by omega)]

/-- Settles O42: both handlers raise FatalOpcode with the word put together (`append_eq_ofNat`). -/
theorem fatalOpcodesRecordTheirWord : Obligations.FatalOpcodesRecordTheirWord := by
  intro s low
  have hraise : ∀ op : BitVec 4, s.raiseFatal op (op ++ low) = { s with
      outcome := some (.fatal op (BitVec.ofNat 16 (op.toNat * 4096 + low.toNat)) s.pc) } :=
    fun op => by rw [append_eq_ofNat]; rfl
  exact ⟨congrArg Host.Outcome.next (hraise 0x8), congrArg Host.Outcome.next (hraise 0xD)⟩

end Sys2Proof.Machine
end

section
/-!
The canonical form under handlers and steps, and the closure of the sound states under steps.
-/

namespace Sys2Proof.Machine

open Sys2Proof.Claims

/-! ### The canonical form of memory (log 7) -/

@[simp] theorem getcRead_mem (s : State) : s.getcRead.mem = s.mem := by
  rcases getcRead_cases s with ⟨-, h⟩ | ⟨b, rest, -, h⟩ <;> rw [h]

@[simp] theorem inRead_mem (s : State) : s.inRead.mem = s.mem := by
  rcases inRead_cases s with ⟨-, h⟩ | ⟨b, rest, -, h⟩ <;> rw [h]

@[simp] theorem inRoutine_mem (s : State) : s.inRoutine.mem = s.mem := inRead_mem _

theorem putsFrom_wf {s : State} (h : Memory.wf s.mem) (a : Word) : Memory.wf (s.putsFrom a).mem :=
  scan_wf _ _ _ a h

theorem putspFrom_wf {s : State} (h : Memory.wf s.mem) (a : Word) :
    Memory.wf (s.putspFrom a).mem :=
  scan_wf _ _ _ a h

/-- The handler of every well-formed instruction keeps the canonical form. -/
theorem exec_wf {i : Instr} (hi : i.wf = true) {s : State} (h : Memory.wf s.mem) :
    ∃ t, exec i s = .next t ∧ Memory.wf t.mem := by
  cases i
  case addReg | addImm | andReg | andImm | not | lea | jmp | ret | jsr | jsrr | out | halt | rti |
      res => exact ⟨_, rfl, h⟩
  case br => exact ⟨_, rfl, by split <;> exact h⟩
  case ld | ldr => exact ⟨_, rfl, memRead_wf h _⟩
  case ldi => exact ⟨_, rfl, memRead_wf (memRead_wf h _) _⟩
  case st | str => exact ⟨_, rfl, setCell_wf h _ _⟩
  case sti => exact ⟨_, rfl, setCell_wf (memRead_wf h _) _ _⟩
  case trap => exact ⟨_, rfl, by rw [dispatch_of_wf hi]; exact h⟩
  case getc => exact ⟨_, rfl, by rw [getcRead_mem]; exact h⟩
  case inp => exact ⟨_, rfl, by rw [inRoutine_mem]; exact h⟩
  case puts => exact ⟨_, rfl, putsFrom_wf h _⟩
  case putsp => exact ⟨_, rfl, putspFrom_wf h _⟩

/-- What a step resumes keeps the canonical form. -/
theorem resume_wf {s : State} (h : Memory.wf s.mem) : Memory.wf s.resume.mem := by
  rcases resume_cases s with e | e | e | e | ⟨a, e⟩ | ⟨a, e⟩ <;> rw [e]
  · exact h
  · exact h
  · rw [getcRead_mem]
    exact h
  · rw [inRead_mem]
    exact h
  · exact putsFrom_wf h a
  · exact putspFrom_wf h a

/-! ### COND (10_state.md R24) -/

/-- The legal values of COND: no flag, N, Z or P. -/
def legalConds : List (BitVec 3) := [0, 0b100, 0b010, 0b001]

theorem flagOf_mem_legalConds (v : Word) : flagOf v ∈ legalConds := by
  rcases flagOf_legal v with h | h | h <;> rw [h] <;> decide

/-- A handler sets the flag of a result or leaves COND alone. -/
theorem exec_cond_legal {s : State} (h : s.cond ∈ legalConds) (i : Instr) :
    ∃ t, exec i s = .next t ∧ t.cond ∈ legalConds := by
  match hd : destOf i with
  | some d =>
    obtain ⟨u, v, hx, -⟩ := exec_of_destOf hd s
    exact ⟨_, hx, (writeResult_cond u d v).symm ▸ flagOf_mem_legalConds v⟩
  | none =>
    obtain ⟨t, hx, hc⟩ := exec_cond_of_no_dest hd s
    exact ⟨t, hx, hc.symm ▸ h⟩

/-! ### Sound states -/

/-- On a run that goes on, soundness is canonical memory and legal COND. -/
theorem inv_of_mayStep {s : State} (hm : Memory.wf s.mem) (hc : s.cond ∈ legalConds)
    (hs : MayStep s) : s.Inv where
  memWf := hm
  condLegal := hc
  haltAgrees := by simp [hs.1, hs.2]
  endedAtBoundary h := absurd hs.1 h
  fatalRecord := by simp [hs.1]

/-- A cancellation that is taken leaves a sound state. -/
theorem inv_takeCancel {s : State} (hm : Memory.wf s.mem) (hc : s.cond ∈ legalConds)
    (hs : MayStep s) : s.takeCancel.Inv where
  memWf := hm
  condLegal := hc
  haltAgrees := by simp [hs.2]
  endedAtBoundary _ := rfl
  fatalRecord := by simp

/-- HALT leaves a sound state. -/
theorem inv_haltRoutine {s : State} (hm : Memory.wf s.mem) (hc : s.cond ∈ legalConds)
    (hb : s.activity = .boundary) : s.haltRoutine.Inv where
  memWf := hm
  condLegal := hc
  haltAgrees := iff_of_true rfl rfl
  endedAtBoundary _ := hb
  fatalRecord := by simp [State.haltRoutine]

/-- A fatal record of a word with one of the two reserved opcodes leaves a sound state. -/
theorem inv_raiseFatal {s : State} (hm : Memory.wf s.mem) (hc : s.cond ∈ legalConds)
    (hs : MayStep s) (hb : s.activity = .boundary) {op : BitVec 4} (low : BitVec 12)
    (hop : op = 0x8 ∨ op = 0xD) : (s.raiseFatal op (op ++ low)).Inv where
  memWf := hm
  condLegal := hc
  haltAgrees := by simp [hs.2]
  endedAtBoundary _ := hb
  fatalRecord := by
    intro op' word pc h
    obtain ⟨rfl, rfl, rfl⟩ : op = op' ∧ op ++ low = word ∧ s.pc = pc := by simpa using h
    have hfield : (op ++ low).extractLsb' 12 4 = op := by
      rw [BitVec.extractLsb'_append_eq_left]
    exact ⟨hop, hfield, rfl⟩

/-- The handler of every well-formed instruction keeps a state sound that is at a boundary of a run
that goes on. -/
theorem exec_inv {i : Instr} (hi : i.wf = true) {s : State} (h : s.Inv) (hs : MayStep s)
    (hb : s.activity = .boundary) : ∃ t, exec i s = .next t ∧ t.Inv := by
  by_cases he : endsRun i
  · rcases he with rfl | ⟨low, rfl⟩ | ⟨low, rfl⟩
    · exact ⟨_, rfl, inv_haltRoutine h.memWf h.condLegal hb⟩
    · exact ⟨_, rfl, inv_raiseFatal h.memWf h.condLegal hs hb low (.inl rfl)⟩
    · exact ⟨_, rfl, inv_raiseFatal h.memWf h.condLegal hs hb low (.inr rfl)⟩
  · obtain ⟨t, hx, -, hgo, -⟩ := onlyHaltAndFatalHandlersEndTheLoop i s hi hs
    obtain ⟨u, hu, hm⟩ := exec_wf hi h.memWf
    cases hu.symm.trans hx
    obtain ⟨u, hu, hc⟩ := exec_cond_legal h.condLegal i
    cases hu.symm.trans hx
    exact ⟨t, hx, inv_of_mayStep hm hc (hgo he)⟩

/-- What a step resumes takes the pending cancellation or leaves the outcome alone. -/
theorem resume_outcome (s : State) :
    s.resume = s.takeCancel ∨ s.resume.outcome = s.outcome := by
  rcases resume_cases s with e | e | e | e | ⟨a, e⟩ | ⟨a, e⟩
  · exact .inr (congrArg State.outcome e)
  · exact .inl e
  · exact .inr ((congrArg State.outcome e).trans (getcRead_outcome s))
  · exact .inr ((congrArg State.outcome e).trans (inRead_outcome s))
  · exact .inr ((congrArg State.outcome e).trans (putsFrom_outcome s a))
  · exact .inr ((congrArg State.outcome e).trans (putspFrom_outcome s a))

/-- What a step resumes on a run that goes on keeps a state sound. -/
theorem resume_inv {s : State} (h : s.Inv) (hs : MayStep s) : s.resume.Inv := by
  rcases resume_outcome s with hcancel | hout
  · rw [hcancel]
    exact inv_takeCancel h.memWf h.condLegal hs
  · have hgo : MayStep s.resume := ⟨hout.trans hs.1, (resume_engine s).trans hs.2⟩
    exact inv_of_mayStep (resume_wf h.memWf) ((resume_cond s).symm ▸ h.condLegal) hgo

/-- A fetch on a run that goes on keeps a state sound. -/
theorem fetch_inv {s : State} (h : s.Inv) (hs : MayStep s) :
    s.fetch.2.Inv ∧ MayStep s.fetch.2 := by
  have hgo : MayStep s.fetch.2 :=
    ⟨(memRead_outcome s _).trans hs.1, (memRead_engine s _).trans hs.2⟩
  have hcond : s.fetch.2.cond = s.cond := memRead_cond s _
  exact ⟨inv_of_mayStep (memRead_wf h.memWf _) (hcond.symm ▸ h.condLegal) hgo, hgo⟩

/-- Settles O51: the host's turn and the fetch keep a state sound, and then `inv_takeCancel`, `exec_inv`
or `resume_inv`. -/
theorem stepsKeepStatesSound : Obligations.StepsKeepStatesSound := by
  intro s t h ht
  obtain ⟨hnone, hcase⟩ := step_cases ht
  have hs : MayStep s := (ended_eq_none s).1 hnone
  have hhost : s.hostActs.Inv := inv_of_mayStep h.memWf h.condLegal hs
  rcases hcase with ⟨-, -, rfl⟩ | ⟨hb, -, hx⟩ | ⟨-, rfl⟩
  · exact inv_takeCancel h.memWf h.condLegal hs
  · obtain ⟨hinv, hgo⟩ := fetch_inv hhost hs
    obtain ⟨u, hu, hinv'⟩ := exec_inv (decode_wf _) hinv hgo ((memRead_activity _ _).trans hb)
    cases hu.symm.trans hx
    exact hinv'
  · exact resume_inv hhost hs

/-- Settles O52: the reset state is at the start of a run, with no cell listed and COND 0. -/
theorem resetStateIsSound : Obligations.ResetStateIsSound :=
  inv_of_mayStep (by decide) (by decide) ⟨rfl, rfl⟩

end Sys2Proof.Machine
end

section
/-!
What the KBSR cell stores is never observed: states that differ in it only take steps that agree
(20_memory.md R57).
-/

namespace Sys2Proof.Machine

open Sys2Proof.Claims

section
variable {s t : State} (h : SameButKbsr s t)
include h

/-! ### Operations on states that differ in the KBSR cell only -/

theorem sameButKbsr_reg (r : Reg) : t.reg r = s.reg r := reg_congr h.regs r

theorem sameButKbsr_setPc {a b : Word} (hab : b = a) : SameButKbsr (s.setPc a) (t.setPc b) :=
  { h with pc := hab, env := { h.env with } }

theorem sameButKbsr_setReg (r : Reg) {v w : Word} (hvw : w = v) :
    SameButKbsr (s.setReg r v) (t.setReg r w) :=
  { h with
    regs := by rw [setReg_regs, setReg_regs, h.regs, hvw]
    env := { h.env with } }

theorem sameButKbsr_writeResult (d : Reg) {v w : Word} (hvw : w = v) :
    SameButKbsr (s.writeResult d v) (t.writeResult d w) := by
  rw [writeResult_eq, writeResult_eq, hvw]
  exact { h with regs := congrArg (·.set d.val v) h.regs, cond := rfl, env := { h.env with } }

theorem sameButKbsr_emit {bs cs : List Byte} (hbs : cs = bs) :
    SameButKbsr (s.emit bs) (t.emit cs) :=
  { h with env := { h.env with output := by rw [emit_output, emit_output, h.env.output, hbs] } }

theorem sameButKbsr_withActivity (x : Activity) :
    SameButKbsr { s with activity := x } { t with activity := x } :=
  { h with env := { h.env with activity := rfl } }

/-- A store of one word to one address, KBSR or another. -/
theorem sameButKbsr_setCell {a b v w : Word} (hab : b = a) (hvw : w = v) :
    SameButKbsr (s.setCell a v) (t.setCell b w) := by
  subst hab hvw
  refine { h with
    cells := fun c hc => ?_
    leftWf := setCell_wf h.leftWf _ _
    rightWf := setCell_wf h.rightWf _ _
    env := { h.env with } }
  by_cases hcb : c = b
  · rw [hcb, cell_setCell_same h.leftWf, cell_setCell_same h.rightWf]
  · rw [cell_setCell_other _ _ hcb, cell_setCell_other _ _ hcb, h.cells c hc]

/-- The poll overwrites the KBSR cell. -/
theorem sameButKbsr_poll :
    SameButKbsr s.poll t.poll ∧ t.poll.cell kbsrAddr = s.poll.cell kbsrAddr := by
  refine ⟨?_, by rw [poll_kbsr h.leftWf, poll_kbsr h.rightWf, h.env.input]⟩
  cases hi : s.input with
  | nil =>
    rw [poll_nil hi, poll_nil (h.env.input.trans hi)]
    exact sameButKbsr_setCell h rfl rfl
  | cons b rest =>
    have hread : SameButKbsr { s with input := rest, consumed := s.consumed ++ [b] }
        { t with input := rest, consumed := t.consumed ++ [b] } :=
      { h with env := { h.env with input := rfl, consumed := congrArg (· ++ [b]) h.env.consumed } }
    rw [poll_cons hi, poll_cons (h.env.input.trans hi)]
    exact sameButKbsr_setCell (sameButKbsr_setCell hread rfl rfl) rfl rfl

/-- A read gives the same word, and states that differ in the KBSR cell only. -/
theorem sameButKbsr_memRead {a b : Word} (hab : b = a) :
    (t.memRead b).1 = (s.memRead a).1 ∧ SameButKbsr (s.memRead a).2 (t.memRead b).2 := by
  subst hab
  by_cases hb : b = kbsrAddr
  · rw [hb, memRead_kbsr, memRead_kbsr]
    exact (sameButKbsr_poll h).symm
  · rw [memRead_other _ hb, memRead_other _ hb]
    exact ⟨h.cells b hb, h⟩

theorem sameButKbsr_loadTo (d : Reg) {a b : Word} (hab : b = a) :
    SameButKbsr (s.loadTo d a) (t.loadTo d b) := by
  obtain ⟨hv, hread⟩ := sameButKbsr_memRead h hab
  exact sameButKbsr_writeResult hread d hv

/-! ### The routines -/

theorem sameButKbsr_getcRead : SameButKbsr s.getcRead t.getcRead := by
  cases hi : s.input with
  | nil =>
    rw [getcRead_nil hi, getcRead_nil (h.env.input.trans hi)]
    exact sameButKbsr_withActivity h _
  | cons b rest =>
    rw [getcRead_cons hi, getcRead_cons (h.env.input.trans hi)]
    exact { h with
      regs := congrArg (·.set 0 (zext16 b)) h.regs
      env := { h.env with
        input := rfl, consumed := congrArg (· ++ [b]) h.env.consumed, activity := rfl } }

theorem sameButKbsr_inRead : SameButKbsr s.inRead t.inRead := by
  cases hi : s.input with
  | nil =>
    rw [inRead_nil hi, inRead_nil (h.env.input.trans hi)]
    exact sameButKbsr_withActivity h _
  | cons b rest =>
    rw [inRead_cons hi, inRead_cons (h.env.input.trans hi)]
    exact { h with
      regs := congrArg (·.set 0 (zext16 b)) h.regs
      env := { h.env with
        input := rfl, consumed := congrArg (· ++ [b]) h.env.consumed, activity := rfl
        output := congrArg (· ++ [b]) h.env.output } }

end

/-- A scan from the same address, by the number of its iterations: each reads the same word. -/
theorem sameButKbsr_scan (bytes : Word → List Byte) (more : Word → Activity) (n : Nat) (a : Word)
    {s t : State} (h : SameButKbsr s t) :
    SameButKbsr (State.scan bytes more n a s) (State.scan bytes more n a t) := by
  induction n generalizing a s t with
  | zero => exact sameButKbsr_withActivity h _
  | succ n ih =>
    obtain ⟨hv, hread⟩ := sameButKbsr_memRead h (rfl : a = a)
    by_cases hz : (s.memRead a).1 = 0
    · rw [scan_stop _ _ _ hz, scan_stop _ _ _ (hv.trans hz)]
      exact sameButKbsr_withActivity hread _
    · rw [scan_go _ _ _ hz, scan_go _ _ _ (hv.symm ▸ hz)]
      exact ih _ (sameButKbsr_emit hread (congrArg bytes hv))

section
variable {s t : State} (h : SameButKbsr s t)
include h

theorem sameButKbsr_takeCancel : SameButKbsr s.takeCancel t.takeCancel :=
  { h with env := { h.env with outcome := rfl, activity := rfl } }

/-- What a step resumes: a blocked read looks at the input and the request, which are the same. -/
theorem sameButKbsr_resume : SameButKbsr s.resume t.resume := by
  have hcancel : (t.cancelRequested && !t.pollReady) = (s.cancelRequested && !s.pollReady) := by
    rw [State.pollReady, State.pollReady, h.env.input, h.env.cancelRequested]
  have hact := h.env.activity
  cases ha : s.activity with
  | boundary =>
    rw [resume_boundary ha, resume_boundary (hact.trans ha)]
    exact h
  | getcRead =>
    rw [resume_getcRead ha, resume_getcRead (hact.trans ha), hcancel]
    split
    · exact sameButKbsr_takeCancel h
    · exact sameButKbsr_getcRead h
  | inRead =>
    rw [resume_inRead ha, resume_inRead (hact.trans ha), hcancel]
    split
    · exact sameButKbsr_takeCancel h
    · exact sameButKbsr_inRead h
  | putsScan a =>
    rw [resume_putsScan ha, resume_putsScan (hact.trans ha)]
    exact sameButKbsr_scan _ _ _ a h
  | putspScan a =>
    rw [resume_putspScan ha, resume_putspScan (hact.trans ha)]
    exact sameButKbsr_scan _ _ _ a h

/-! ### Handlers and steps -/

theorem sameButKbsr_pcRelative {n : Nat} (off : BitVec n) : t.pcRelative off = s.pcRelative off :=
  congrArg (· + sext off) h.pc

theorem sameButKbsr_basePlus (base : Reg) (off : BitVec 6) :
    t.basePlus base off = s.basePlus base off :=
  congrArg (· + sext off) (sameButKbsr_reg h base)

/-- The handlers of every well-formed instruction agree. -/
theorem sameButKbsr_exec {i : Instr} (hi : i.wf = true) :
    ∃ s' t', exec i s = .next s' ∧ exec i t = .next t' ∧ SameButKbsr s' t' := by
  have hreg := sameButKbsr_reg h
  cases i
  case addReg | addImm | andReg | andImm | not =>
    exact ⟨_, _, rfl, rfl, sameButKbsr_writeResult h _ (by simp only [hreg])⟩
  case lea d off =>
    exact ⟨_, _, rfl, rfl, sameButKbsr_writeResult h _ (sameButKbsr_pcRelative h off)⟩
  case br nzp off =>
    have htaken : t.branchTaken nzp = s.branchTaken nzp := congrArg (nzp &&& · != 0) h.cond
    refine ⟨_, _, rfl, rfl, ?_⟩
    rw [htaken]
    split
    · exact sameButKbsr_setPc h (sameButKbsr_pcRelative h off)
    · exact h
  case jmp | ret => exact ⟨_, _, rfl, rfl, sameButKbsr_setPc h (hreg _)⟩
  case jsr off =>
    have hlink : SameButKbsr s.saveReturn t.saveReturn := sameButKbsr_setReg h linkReg h.pc
    exact ⟨_, _, rfl, rfl, sameButKbsr_setPc hlink (sameButKbsr_pcRelative h off)⟩
  case jsrr base =>
    have hlink : SameButKbsr s.saveReturn t.saveReturn := sameButKbsr_setReg h linkReg h.pc
    exact ⟨_, _, rfl, rfl, sameButKbsr_setPc hlink (sameButKbsr_reg hlink base)⟩
  case ld d off => exact ⟨_, _, rfl, rfl, sameButKbsr_loadTo h d (sameButKbsr_pcRelative h off)⟩
  case ldr d base off =>
    exact ⟨_, _, rfl, rfl, sameButKbsr_loadTo h d (sameButKbsr_basePlus h base off)⟩
  case ldi d off =>
    obtain ⟨hp, hread⟩ := sameButKbsr_memRead h (sameButKbsr_pcRelative h off)
    exact ⟨_, _, rfl, rfl, sameButKbsr_loadTo hread d hp⟩
  case st r off =>
    exact ⟨_, _, rfl, rfl, sameButKbsr_setCell h (sameButKbsr_pcRelative h off) (hreg r)⟩
  case str r base off =>
    exact ⟨_, _, rfl, rfl, sameButKbsr_setCell h (sameButKbsr_basePlus h base off) (hreg r)⟩
  case sti r off =>
    obtain ⟨hp, hread⟩ := sameButKbsr_memRead h (sameButKbsr_pcRelative h off)
    exact ⟨_, _, rfl, rfl, sameButKbsr_setCell hread hp (sameButKbsr_reg hread r)⟩
  case trap v =>
    refine ⟨_, _, rfl, rfl, ?_⟩
    rw [dispatch_of_wf hi, dispatch_of_wf hi]
    exact h
  case getc => exact ⟨_, _, rfl, rfl, sameButKbsr_getcRead h⟩
  case inp => exact ⟨_, _, rfl, rfl, sameButKbsr_inRead (sameButKbsr_emit h rfl)⟩
  case out =>
    exact ⟨_, _, rfl, rfl, sameButKbsr_emit h (congrArg (fun w => [lowByte w]) (hreg 0))⟩
  case puts | putsp =>
    refine ⟨_, _, rfl, rfl, ?_⟩
    rw [hreg 0]
    exact sameButKbsr_scan _ _ _ _ h
  case halt =>
    exact ⟨_, _, rfl, rfl, { h with env := { h.env with
      engine := rfl, outcome := rfl, output := congrArg (· ++ Config.haltMarker) h.env.output } }⟩
  case rti | res =>
    exact ⟨_, _, rfl, rfl, { h with env := { h.env with
      outcome := congrArg (fun pc => some (RunOutcome.fatal _ _ pc)) h.pc } }⟩

theorem sameButKbsr_hostActs : SameButKbsr s.hostActs t.hostActs :=
  { h with env := { h.env with
      input := by rw [hostActs_input, hostActs_input, h.env.input, h.env.host]
      cancelRequested := by
        rw [hostActs_cancelRequested, hostActs_cancelRequested, h.env.cancelRequested, h.env.host]
      host := by rw [hostActs_host, hostActs_host, h.env.host] } }

/-- A fetch gives the same word. -/
theorem sameButKbsr_fetch : t.fetch.1 = s.fetch.1 ∧ SameButKbsr s.fetch.2 t.fetch.2 := by
  obtain ⟨hw, hread⟩ := sameButKbsr_memRead h h.pc
  exact ⟨hw, sameButKbsr_setPc hread (congrArg (· + 1) h.pc)⟩

theorem sameButKbsr_ended : t.ended = s.ended := by
  simp only [State.ended, h.env.outcome, h.env.engine]

/-- A step from a run that goes on. -/
theorem sameButKbsr_step (hs : MayStep s) :
    ∃ s' t', step s = .next s' ∧ step t = .next t' ∧ SameButKbsr s' t' := by
  have ht : MayStep t := ⟨h.env.outcome.trans hs.1, h.env.engine.trans hs.2⟩
  have hhost := sameButKbsr_hostActs h
  by_cases hb : s.activity = .boundary
  · have hb' : t.activity = .boundary := h.env.activity.trans hb
    cases hc : s.hostActs.cancelRequested with
    | true =>
      have hc' := hhost.env.cancelRequested.trans hc
      exact ⟨_, _, step_of_cancel hs hb hc, step_of_cancel ht hb' hc',
        sameButKbsr_takeCancel hhost⟩
    | false =>
      have hc' := hhost.env.cancelRequested.trans hc
      obtain ⟨hw, hfetch⟩ := sameButKbsr_fetch hhost
      rw [step_of_boundary hs hb hc, step_of_boundary ht hb' hc', hw]
      exact sameButKbsr_exec hfetch (decode_wf _)
  · have hb' : t.activity ≠ .boundary := h.env.activity.symm ▸ hb
    exact ⟨_, _, step_of_routine hs hb, step_of_routine ht hb', sameButKbsr_resume hhost⟩

end

/-- Settles O23: on a run that goes on by `sameButKbsr_step`; an ended run answers its outcome, which is
the same. -/
theorem storedKbsrIsNeverObserved : Obligations.StoredKbsrIsNeverObserved := by
  refine fun s t h => ⟨fun s' hs' => ?_, fun f hf => ?_⟩
  · have hs : MayStep s := (ended_eq_none s).1 (step_cases hs').1
    obtain ⟨u, t', hu, ht', hsame⟩ := sameButKbsr_step h hs
    cases hu.symm.trans hs'
    exact ⟨t', ht', hsame⟩
  · match he : s.ended with
    | none =>
      obtain ⟨t, ht⟩ := step_next_of_mayStep ((ended_eq_none s).1 he)
      exact nomatch ht.symm.trans hf
    | some o =>
      rw [step_of_ended ((sameButKbsr_ended h).trans he), ← step_of_ended he]
      exact hf

end Sys2Proof.Machine
end

section
/-!
The scans of PUTS and PUTSP: over a string, by the loop of their rule, resumed, and without end (44_trap.md
R174, R176, D14).
-/

namespace Sys2Proof.Machine

open Sys2Proof.Claims

/-! ### The bytes of a word (D12, D13) -/

theorem lowByte_eq_ofNat (c : Word) : lowByte c = BitVec.ofNat 8 (c.toNat % 256) := by
  apply BitVec.eq_of_toNat_eq
  rw [toNat_lowByte, BitVec.toNat_ofNat, Nat.mod_mod]

theorem highByte_eq_ofNat (c : Word) : highByte c = BitVec.ofNat 8 (c.toNat / 256) := by
  apply BitVec.eq_of_toNat_eq
  rw [toNat_highByte, BitVec.toNat_ofNat, Nat.mod_eq_of_lt (by omega)]

theorem putsBytes_eq_putsOf : putsBytes = putsOf :=
  funext fun c => congrArg (fun b => [b]) (lowByte_eq_ofNat c)

theorem putspBytes_eq_putspOf : putspBytes = putspOf := by
  funext c
  have hzero : highByte c = 0 ↔ c.toNat / 256 = 0 := by
    rw [← BitVec.toNat_inj, toNat_highByte]
    rfl
  simp only [putspBytes, putspOf, hzero]
  rw [lowByte_eq_ofNat, highByte_eq_ofNat]

theorem exec_puts (s : State) : exec .puts s =
    .next (State.scan putsOf .putsScan 65536 (s.reg 0) s) := by
  rw [← putsBytes_eq_putsOf]
  rfl

theorem exec_putsp (s : State) : exec .putsp s =
    .next (State.scan putspOf .putspScan 65536 (s.reg 0) s) := by
  rw [← putspBytes_eq_putspOf]
  rfl

/-! ### The scan of a string (R174, R176) -/

/-- The address after `k + 1` words, from the next one. -/
theorem add_ofNat_succ (a : Word) (k : Nat) :
    a + BitVec.ofNat 16 (k + 1) = a + 1 + BitVec.ofNat 16 k := by
  rw [BitVec.add_assoc, Nat.add_comm, BitVec.ofNat_add]
  rfl

/-- A string without its first word stands at the next address. -/
theorem stringAt_tail {s : State} {a w : Word} {ws : List Word} (h : StringAt s a (w :: ws)) :
    StringAt s (a + 1) ws := by
  obtain ⟨hlen, hwords, hend, hkbsr⟩ := h
  refine ⟨Nat.lt_of_succ_lt hlen, fun k hk => ?_, ?_, fun k hk => ?_⟩
  · rw [← add_ofNat_succ]
    exact hwords (k + 1) (Nat.succ_lt_succ hk)
  · rw [← add_ofNat_succ]
    exact hend
  · rw [← add_ofNat_succ]
    exact hkbsr (k + 1) (Nat.succ_le_succ hk)

/-- The first word of a string, and that it is read without a poll. -/
theorem stringAt_head {s : State} {a w : Word} {ws : List Word} (h : StringAt s a (w :: ws)) :
    s.memRead a = (w, s) ∧ w ≠ 0 := by
  obtain ⟨-, hwords, -, hkbsr⟩ := h
  have ha : a ≠ kbsrAddr := by simpa using hkbsr 0 (Nat.zero_le _)
  obtain ⟨hw, hne⟩ := hwords 0 (Nat.succ_pos _)
  exact ⟨by rw [memRead_other s ha]; simpa using hw, hne⟩

/-- The zero word after a string, and that it is read without a poll. -/
theorem stringAt_nil {s : State} {a : Word} (h : StringAt s a []) : s.memRead a = (0, s) := by
  obtain ⟨-, -, hend, hkbsr⟩ := h
  have ha : a ≠ kbsrAddr := by simpa using hkbsr 0 (Nat.zero_le _)
  rw [memRead_other s ha]
  simpa using hend

/-- A scan that may read more words than a string has writes the string and ends. -/
theorem scan_of_stringAt (bytes : Word → List Byte) (more : Word → Activity) {n : Nat} {a : Word}
    {ws : List Word} {s : State} (h : StringAt s a ws) (hn : ws.length < n) :
    State.scan bytes more n a s =
      { s with output := s.output ++ ws.flatMap bytes, activity := .boundary } := by
  induction n generalizing a ws s with
  | zero => exact absurd hn (Nat.not_lt_zero _)
  | succ n ih =>
    cases ws with
    | nil =>
      have hr := stringAt_nil h
      rw [scan_stop _ _ _ (congrArg Prod.fst hr), hr, List.flatMap_nil, List.append_nil]
    | cons w ws =>
      obtain ⟨hr, hw⟩ := stringAt_head h
      have htail : StringAt (s.emit (bytes w)) (a + 1) ws := stringAt_tail h
      rw [scan_go _ _ _ (by rw [hr]; exact hw), hr, ih htail (Nat.lt_of_succ_lt_succ hn),
        List.flatMap_cons, ← List.append_assoc]
      rfl

/-- Settles O31: a string is shorter than a batch (`scan_of_stringAt`). -/
theorem putsAndPutspWriteTheString : Obligations.PutsAndPutspWriteTheString := by
  intro s ws h
  rw [exec_puts, exec_putsp, scan_of_stringAt _ _ h h.1, scan_of_stringAt _ _ h h.1]
  exact ⟨rfl, rfl⟩

/-! ### The loop of the rule (R174, R176; D7) -/

/-- A scan runs the iterations of the rule's loop, and goes on from where they arrive. -/
theorem scan_of_scanRun (bytes : Word → List Byte) (more : Word → Activity) {n : Nat} (m : Nat)
    {a b : Word} {s t : State} (hs : Memory.wf s.mem) (h : ScanRun bytes n a s b t) :
    State.scan bytes more (n + m) a s = State.scan bytes more m b t ∧ Memory.wf t.mem := by
  induction n generalizing a s with
  | zero =>
    obtain ⟨rfl, rfl⟩ := h
    exact ⟨by rw [Nat.zero_add], hs⟩
  | succ n ih =>
    obtain ⟨v, u, hread, hu, hv, hrest⟩ := h
    have hr := memRead_of_readOf hs hu hread
    obtain ⟨hscan, ht⟩ := ih (s := u.emit (bytes v)) hu hrest
    refine ⟨?_, ht⟩
    rw [Nat.add_right_comm, scan_go _ _ _ (by rw [hr]; exact hv), hr]
    exact hscan

/-- A zero word read after fewer iterations than the batch has ends the scan. -/
theorem scan_of_scanRun_stop (bytes : Word → List Byte) (more : Word → Activity) {n : Nat}
    {a b : Word} {s t u : State} (hs : Memory.wf s.mem) (hn : n < 65536)
    (h : ScanRun bytes n a s b t) (hread : ReadOf t b 0 u) (hu : Memory.wf u.mem) :
    State.scan bytes more 65536 a s = { u with activity := .boundary } := by
  obtain ⟨m, hm⟩ := Nat.exists_eq_add_of_lt hn
  obtain ⟨hscan, ht⟩ := scan_of_scanRun bytes more (m + 1) hs h
  have hr := memRead_of_readOf ht hu hread
  rw [hm, Nat.add_assoc, hscan, scan_stop _ _ _ (by rw [hr]), hr]

/-- A batch of iterations without a zero word leaves the scan unfinished. -/
theorem scan_of_scanRun_more (bytes : Word → List Byte) (more : Word → Activity) {a b : Word}
    {s t : State} (hs : Memory.wf s.mem) (h : ScanRun bytes 65536 a s b t) :
    State.scan bytes more 65536 a s = { t with activity := more b } :=
  (scan_of_scanRun bytes more 0 hs h).1

/-- Settles O33: both handlers are scans from R0's address. -/
theorem scansFollowTheLoopOfTheirRule : Obligations.ScansFollowTheLoopOfTheirRule := by
  intro s t b hs
  rw [exec_puts, exec_putsp]
  refine ⟨fun n u hn hread hu => ⟨fun h => ?_, fun h => ?_⟩, fun h => ?_, fun h => ?_⟩
  · rw [scan_of_scanRun_stop _ _ hs hn h hread hu]
  · rw [scan_of_scanRun_stop _ _ hs hn h hread hu]
  · rw [scan_of_scanRun_more _ _ hs h]
  · rw [scan_of_scanRun_more _ _ hs h]

/-! ### Unfinished scans (D14, log 6) -/

/-- A step from an unfinished scan is its next batch, in the state that the host's turn leaves. -/
def StepsByBatch (bytes : Word → List Byte) (more : Word → Activity) : Prop :=
  ∀ (s : State) (a : Word), MayStep s → s.activity = more a →
    step s = .next (State.scan bytes more 65536 a s.hostActs)

theorem stepsByBatch_puts : StepsByBatch putsOf .putsScan := by
  intro s a hs ha
  rw [step_of_routine hs (by rw [ha]; exact Activity.noConfusion),
    resume_putsScan (s := s.hostActs) ha, ← putsBytes_eq_putsOf]
  rfl

theorem stepsByBatch_putsp : StepsByBatch putspOf .putspScan := by
  intro s a hs ha
  rw [step_of_routine hs (by rw [ha]; exact Activity.noConfusion),
    resume_putspScan (s := s.hostActs) ha, ← putspBytes_eq_putspOf]
  rfl

/-- Settles O34: the step is the scan's next batch, whatever the host does. -/
theorem unfinishedScansGoOn : Obligations.UnfinishedScansGoOn := by
  intro s t a b hs hwf
  have hhost : Memory.wf s.hostActs.mem := hwf
  refine ⟨fun n u hn hread hu => ⟨fun ha h => ?_, fun ha h => ?_⟩, fun ha h => ?_, fun ha h => ?_⟩
  · rw [stepsByBatch_puts s a hs ha, scan_of_scanRun_stop _ _ hhost hn h hread hu]
  · rw [stepsByBatch_putsp s a hs ha, scan_of_scanRun_stop _ _ hhost hn h hread hu]
  · rw [stepsByBatch_puts s a hs ha, scan_of_scanRun_more _ _ hhost h]
  · rw [stepsByBatch_putsp s a hs ha, scan_of_scanRun_more _ _ hhost h]

/-! ### A scan that reads KBSR (D7) -/

theorem kbsrReady_ne_zero : kbsrReady ≠ 0 := by decide

/-- With no byte available the poll's answer is the zero word that ends the scan. -/
theorem scan_kbsr_nil (bytes : Word → List Byte) (more : Word → Activity) (n : Nat) {s : State}
    (hs : Memory.wf s.mem) (hi : s.input = []) :
    State.scan bytes more (n + 1) kbsrAddr s =
      { s.setCell kbsrAddr 0 with activity := .boundary } := by
  have hread : s.memRead kbsrAddr = (0, s.setCell kbsrAddr 0) := by
    rw [memRead_kbsr, poll_kbsr hs, if_pos hi, poll_nil hi]
  rw [scan_stop _ _ _ (congrArg Prod.fst hread), hread]

/-- With a byte available the poll's answer is written, and the scan goes on to the next cell. -/
theorem scan_kbsr_cons (bytes : Word → List Byte) (more : Word → Activity) (n : Nat) {s : State}
    (hs : Memory.wf s.mem) (hi : s.input ≠ []) (hnext : s.cell (kbsrAddr + 1) = 0) :
    State.scan bytes more (n + 2) kbsrAddr s =
      { s.poll.emit (bytes kbsrReady) with activity := .boundary } := by
  have hread : s.memRead kbsrAddr = (kbsrReady, s.poll) := by
    rw [memRead_kbsr, poll_kbsr hs, if_neg hi]
  have hread' : (s.poll.emit (bytes kbsrReady)).memRead (kbsrAddr + 1) =
      (0, s.poll.emit (bytes kbsrReady)) := by
    rw [memRead_other _ (by decide), cell_emit, poll_cell_other s (by decide) (by decide), hnext]
  rw [scan_go _ _ _ (by rw [hread]; exact kbsrReady_ne_zero), hread,
    scan_stop _ _ _ (congrArg Prod.fst hread'), hread']

/-- Settles O32: `scan_kbsr_nil` and `scan_kbsr_cons` for both routines. -/
theorem scanOfKbsrPolls : Obligations.ScanOfKbsrPolls := by
  intro s hs hreg
  rw [exec_puts, exec_putsp, hreg]
  refine ⟨fun hi => ?_, fun b rest hi hnext => ?_⟩
  · rw [scan_kbsr_nil _ _ _ hs hi, scan_kbsr_nil _ _ _ hs hi]
    exact ⟨rfl, rfl⟩
  · have hne : s.input ≠ [] := by simp [hi]
    have hkbdr : (s.poll.cell kbdrAddr).toNat = b.toNat := by rw [poll_kbdr hs hi, toNat_zext16]
    have hin : s.poll.input = rest := poll_input_cons hi
    rw [scan_kbsr_cons _ _ _ hs hne hnext, scan_kbsr_cons _ _ _ hs hne hnext]
    exact ⟨_, _, rfl, rfl, congrArg (· ++ [0x00]) (poll_output s),
      congrArg (· ++ [0x00, 0x80]) (poll_output s), hkbdr, hkbdr, hin, hin, rfl, rfl⟩

end Sys2Proof.Machine
end

section
/-!
The hang of PUTS and PUTSP: where no cell holds a zero word and a byte is available for each poll, a scan
is unfinished after any number of steps (44_trap.md R174, R176, D14).
-/

namespace Sys2Proof.Machine

open Sys2Proof.Claims

/-! ### No zero word, now or later -/

/-- The host's turn brings a byte, and no zero one. -/
theorem noTerminator_hostActs {s : State} (h : NoTerminator s) :
    NoTerminator s.hostActs ∧ s.hostActs.input ≠ [] := by
  obtain ⟨hne, hzero⟩ := h.host 0
  have hlater : KeepsSupplying s.host.next.2 := fun n => h.host (n + 1)
  have hin : 0x00 ∉ s.hostActs.input := fun hmem =>
    (List.mem_append.1 hmem).elim h.input hzero
  exact ⟨⟨h.wf, h.cells, hin, hlater⟩, fun he => hne (List.append_eq_nil_iff.1 he).2⟩

/-- A poll that finds a byte leaves no zero word, because the byte is none. -/
theorem noTerminator_poll {s : State} (h : NoTerminator s) (hi : s.input ≠ []) :
    NoTerminator s.poll := by
  obtain ⟨b, rest, hb⟩ := List.exists_cons_of_ne_nil hi
  have hbyte : b ≠ 0x00 := fun e => h.input (by simp [hb, e])
  have hrest : s.poll.input = rest := poll_input_cons hb
  refine ⟨poll_wf h.wf, fun a ha => ?_, fun hmem => h.input ?_, (poll_host s).symm ▸ h.host⟩
  · by_cases hd : a = kbdrAddr
    · rw [hd, poll_kbdr h.wf hb]
      intro hz
      exact hbyte (BitVec.eq_of_toNat_eq (by simpa using congrArg BitVec.toNat hz))
    · rw [poll_cell_other s ha hd]
      exact h.cells a ha
  · rw [hrest] at hmem
    rw [hb]
    exact List.mem_cons_of_mem _ hmem

/-- A read gives no zero word, if a byte is available where it polls. -/
theorem noTerminator_memRead {s : State} (h : NoTerminator s) {a : Word}
    (hi : a = kbsrAddr → s.input ≠ []) :
    (s.memRead a).1 ≠ 0 ∧ NoTerminator (s.memRead a).2 := by
  by_cases ha : a = kbsrAddr
  · rw [ha, memRead_kbsr, poll_kbsr h.wf, if_neg (hi ha)]
    exact ⟨kbsrReady_ne_zero, noTerminator_poll h (hi ha)⟩
  · rw [memRead_other s ha]
    exact ⟨h.cells a ha, h⟩

/-! ### One batch -/

/-- The output of `t` is that of `s` and then the bytes of `n` words. -/
def Wrote (bytes : Word → List Byte) (n : Nat) (s t : State) : Prop :=
  ∃ ws : List Word, ws.length = n ∧ t.output = s.output ++ ws.flatMap bytes

theorem wrote_zero (bytes : Word → List Byte) (s : State) : Wrote bytes 0 s s :=
  ⟨[], rfl, by simp⟩

theorem wrote_trans {bytes : Word → List Byte} {m n : Nat} {s t u : State}
    (h : Wrote bytes m s t) (h' : Wrote bytes n t u) : Wrote bytes (m + n) s u := by
  obtain ⟨ws, hlen, hout⟩ := h
  obtain ⟨ws', hlen', hout'⟩ := h'
  exact ⟨ws ++ ws', by rw [List.length_append, hlen, hlen'],
    by rw [hout', hout, List.flatMap_append, List.append_assoc]⟩

/-- A read and the emission of its word's bytes. -/
theorem wrote_one (bytes : Word → List Byte) (s : State) (a : Word) :
    Wrote bytes 1 s ((s.memRead a).2.emit (bytes (s.memRead a).1)) :=
  ⟨[(s.memRead a).1], rfl, by simp⟩

/-- A batch comes back to an address only after 65536 words. -/
theorem add_ofNat_ne_self (a : Word) {k : Nat} (hpos : 0 < k) (hk : k < 65536) :
    a + BitVec.ofNat 16 k ≠ a := by
  intro h
  have hzero : BitVec.ofNat 16 k = 0#16 := by simpa using h
  have hnum : k % 65536 = 0 := by simpa using congrArg BitVec.toNat hzero
  omega

/-- A scan that reads each address at most once, with a byte available where KBSR is among them, meets
no zero word. -/
theorem scan_noTerminator (bytes : Word → List Byte) (more : Word → Activity) {n : Nat}
    (hn : n ≤ 65536) {a : Word} {s : State} (h : NoTerminator s)
    (hi : ∀ k, k < n → a + BitVec.ofNat 16 k = kbsrAddr → s.input ≠ []) :
    NoTerminator (State.scan bytes more n a s) ∧
      (State.scan bytes more n a s).activity = more (a + BitVec.ofNat 16 n) ∧
      Wrote bytes n s (State.scan bytes more n a s) := by
  induction n generalizing a s with
  | zero =>
    rw [scan_zero]
    exact ⟨⟨h.wf, h.cells, h.input, h.host⟩, by simp, wrote_zero bytes s⟩
  | succ n ih =>
    have hfirst : a = kbsrAddr → s.input ≠ [] := by simpa using hi 0 (Nat.succ_pos n)
    obtain ⟨hv, hread⟩ := noTerminator_memRead h hfirst
    rw [scan_go _ _ _ hv]
    have hlater : ∀ k, k < n → a + 1 + BitVec.ofNat 16 k = kbsrAddr →
        ((s.memRead a).2.emit (bytes (s.memRead a).1)).input ≠ [] := by
      intro k hk hkbsr
      rw [← add_ofNat_succ] at hkbsr
      have ha : a ≠ kbsrAddr := fun e =>
        add_ofNat_ne_self a (Nat.succ_pos k) (by omega) (hkbsr.trans e.symm)
      rw [memRead_other s ha]
      exact hi (k + 1) (Nat.succ_lt_succ hk) hkbsr
    obtain ⟨hno, hact, hwrote⟩ := ih (Nat.le_of_succ_le hn)
      (s := (s.memRead a).2.emit (bytes (s.memRead a).1))
      ⟨hread.wf, hread.cells, hread.input, hread.host⟩ hlater
    refine ⟨hno, ?_, ?_⟩
    · rw [hact, add_ofNat_succ]
    · rw [Nat.add_comm]
      exact wrote_trans (wrote_one bytes s a) hwrote

/-- A scan of either routine that is unfinished at `a`, on a run that goes on, with no zero word to end
at. -/
structure Endless (more : Word → Activity) (a : Word) (s : State) : Prop where
  mayStep : MayStep s
  noTerminator : NoTerminator s
  activity : s.activity = more a

/-- A batch begun with a byte available reads all addresses and is unfinished where it began. -/
theorem endless_batch (bytes : Word → List Byte) (more : Word → Activity) (a : Word) {s : State}
    (hs : MayStep s) (h : NoTerminator s) (hi : s.input ≠ []) :
    Endless more a (State.scan bytes more 65536 a s) ∧
      Wrote bytes 65536 s (State.scan bytes more 65536 a s) := by
  obtain ⟨hno, hact, hwrote⟩ := scan_noTerminator bytes more (Nat.le_refl 65536) (a := a) h
    fun _ _ _ => hi
  have hout :=
    scan_field State.outcome poll_outcome emit_outcome (fun _ _ => rfl) bytes more 65536 a s
  have heng := scan_field State.engine poll_engine emit_engine (fun _ _ => rfl) bytes more 65536 a s
  have hround : a + BitVec.ofNat 16 65536 = a := BitVec.add_zero a
  exact ⟨⟨⟨hout.trans hs.1, heng.trans hs.2⟩, hno, by rw [hact, hround]⟩, hwrote⟩

/-! ### Any number of steps -/

/-- From an unfinished scan, where each step is a batch. -/
theorem endless_steps (bytes : Word → List Byte) (more : Word → Activity) (a : Word)
    (hstep : StepsByBatch bytes more) (n : Nat) {s : State} (h : Endless more a s) :
    ∃ t, StepsTo n s t ∧ Endless more a t ∧ Wrote bytes (65536 * n) s t := by
  induction n generalizing s with
  | zero => exact ⟨s, rfl, h, wrote_zero bytes s⟩
  | succ n ih =>
    obtain ⟨hno, hi⟩ := noTerminator_hostActs h.noTerminator
    obtain ⟨hbatch, hwrote⟩ := endless_batch bytes more a (s := s.hostActs) h.mayStep hno hi
    obtain ⟨t, hsteps, ht, hwrote'⟩ := ih hbatch
    refine ⟨t, ⟨_, hstep s a h.mayStep h.activity, hsteps⟩, ht, ?_⟩
    rw [Nat.mul_succ, Nat.add_comm]
    exact wrote_trans hwrote hwrote'

/-- From the trap word, whose step is the scan's first batch. -/
theorem endless_from_trap (bytes : Word → List Byte) (more : Word → Activity)
    (hstep : StepsByBatch bytes more) (n : Nat) {s : State} (hs : MayStep s) (h : NoTerminator s)
    (htrap : step s = .next (State.scan bytes more 65536 (s.reg 0)
      { s.hostActs with pc := s.pc + 1 })) :
    ∃ t, StepsTo (n + 1) s t ∧ Endless more (s.reg 0) t ∧ Wrote bytes (65536 * (n + 1)) s t := by
  obtain ⟨hno, hi⟩ := noTerminator_hostActs h
  obtain ⟨hbatch, hwrote⟩ := endless_batch bytes more (s.reg 0)
    (s := { s.hostActs with pc := s.pc + 1 }) hs ⟨hno.wf, hno.cells, hno.input, hno.host⟩ hi
  obtain ⟨t, hsteps, ht, hwrote'⟩ := endless_steps bytes more (s.reg 0) hstep n hbatch
  refine ⟨t, ⟨_, htrap, hsteps⟩, ht, ?_⟩
  rw [Nat.mul_succ, Nat.add_comm]
  exact wrote_trans hwrote hwrote'

/-! ### How many bytes -/

/-- PUTS writes one byte a word (D12). -/
theorem length_of_wrote_puts {n : Nat} {s t : State} (h : Wrote putsOf n s t) :
    t.output.length = s.output.length + n := by
  obtain ⟨ws, hlen, hout⟩ := h
  have hbytes : (ws.flatMap putsOf).length = ws.length := by simp [putsOf]
  rw [hout, List.length_append, hbytes, hlen]

/-- PUTSP writes one byte or two a word (D13). -/
theorem length_of_wrote_putsp {n : Nat} {s t : State} (h : Wrote putspOf n s t) :
    s.output.length + n ≤ t.output.length := by
  obtain ⟨ws, hlen, hout⟩ := h
  have hword : ∀ w, 1 ≤ (putspOf w).length := fun w => by
    unfold putspOf
    split <;> simp
  have hbytes : ws.length ≤ (ws.flatMap putspOf).length := by
    clear hlen hout
    induction ws with
    | nil => exact Nat.zero_le _
    | cons w ws ih =>
      rw [List.length_cons, List.flatMap_cons, List.length_append, Nat.add_comm]
      exact Nat.add_le_add (hword w) ih
  rw [hout, List.length_append, ← hlen]
  exact Nat.add_le_add_left hbytes _

/-- Settles O56: `endless_steps` for a scan that is unfinished and `endless_from_trap` for one that starts,
each with the length of what the batches wrote. -/
theorem scanWithoutTerminatorNeverEnds : Obligations.ScanWithoutTerminatorNeverEnds := by
  intro s hs h
  refine ⟨fun a n ha => ?_, fun a n ha => ?_, fun hb hc hpc => ⟨fun hw n => ?_, fun hw n => ?_⟩⟩
  · obtain ⟨t, hsteps, ht, hwrote⟩ :=
      endless_steps putsOf .putsScan a stepsByBatch_puts n ⟨hs, h, ha⟩
    exact ⟨t, hsteps, ht.mayStep, ht.activity, length_of_wrote_puts hwrote⟩
  · obtain ⟨t, hsteps, ht, hwrote⟩ :=
      endless_steps putspOf .putspScan a stepsByBatch_putsp n ⟨hs, h, ha⟩
    exact ⟨t, hsteps, ht.mayStep, ht.activity, length_of_wrote_putsp hwrote⟩
  · have htrap := (stepRunsTheDecodedInstruction s .puts hs hb hc).2 hpc hw
    obtain ⟨t, hsteps, ht, hwrote⟩ := endless_from_trap putsOf .putsScan
      stepsByBatch_puts n hs h (htrap.trans (exec_puts _))
    exact ⟨t, hsteps, ht.mayStep, ht.activity, length_of_wrote_puts hwrote⟩
  · have htrap := (stepRunsTheDecodedInstruction s .putsp hs hb hc).2 hpc hw
    obtain ⟨t, hsteps, ht, hwrote⟩ := endless_from_trap putspOf .putspScan
      stepsByBatch_putsp n hs h (htrap.trans (exec_putsp _))
    exact ⟨t, hsteps, ht.mayStep, ht.activity, length_of_wrote_putsp hwrote⟩

end Sys2Proof.Machine
end

section
/-!
The trap routines one by one, their frame, and the blocked reads (44_trap.md, 60_exceptions.md R215, R219).
-/

namespace Sys2Proof.Machine

open Sys2Proof.Claims

/-! ### The dispatcher, OUT and HALT (44_trap.md R171, R173, R177) -/

/-- Settles O26: the six vectors by the dispatcher's table, and every other one is a no-op. -/
theorem trapRunsTheRoutineOfItsVector : Obligations.TrapRunsTheRoutineOfItsVector :=
  fun s => ⟨rfl, rfl, rfl, rfl, rfl, rfl, fun v hv => otherTrapVectorsAreNoOps s v hv⟩

/-- Settles O30: the low byte as a number is `lowByte_eq_ofNat`. -/
theorem outWritesTheLowByte : Obligations.OutWritesTheLowByte := by
  intro s
  rw [← lowByte_eq_ofNat]
  rfl

/-- Settles O35: the emission and the end of the engine are the one record update stated. -/
theorem haltWritesItsMarkerAndStops : Obligations.HaltWritesItsMarkerAndStops := fun _ => rfl

/-! ### GETC and IN with a byte available (44_trap.md R172, R175) -/

/-- A register that received a byte holds its number (D10). -/
theorem toNat_reg_setReg_zext16 (s : State) (r : Reg) (b : Byte) :
    ((s.setReg r (zext16 b)).reg r).toNat = b.toNat := by
  rw [reg_setReg_same, toNat_zext16]

/-- Settles O28: the handler is `getcRead`, whose next state is that of `getcRead_cons`. -/
theorem getcStoresTheNextByte : Obligations.GetcStoresTheNextByte := by
  intro s b rest hi
  refine ⟨_, congrArg Host.Outcome.next (getcRead_cons hi), ?_, fun r hr => ?_, rfl, rfl, rfl, rfl,
    rfl, fun _ => rfl, rfl, rfl, rfl, rfl, rfl⟩
  · exact toNat_reg_setReg_zext16 s 0 b
  · exact reg_setReg_other s (zext16 b) hr

/-- Settles O29: after the prompt the handler is `inRead`, whose next state is that of `inRead_cons`. -/
theorem inPromptsEchoesAndStores : Obligations.InPromptsEchoesAndStores := by
  intro s b rest hi
  refine ⟨_, congrArg Host.Outcome.next (inRead_cons (s := s.emit Config.inPrompt) hi), ?_,
    fun r hr => ?_, rfl, rfl, rfl, rfl, rfl, fun _ => rfl, rfl, rfl, rfl, rfl, rfl⟩
  · exact toNat_reg_setReg_zext16 s 0 b
  · exact reg_setReg_other s (zext16 b) hr

/-! ### The frame of the routines (44_trap.md R179) -/

/-- Of the trap routines only those of GETC and IN write a register. -/
theorem exec_regs_of_trap {i : Instr} (hi : i.wf = true) (ht : isTrap i = true)
    (hgetc : i ≠ .getc) (hinp : i ≠ .inp) (s : State) :
    ∃ t, exec i s = .next t ∧ t.regs = s.regs := by
  cases i <;> cases ht
  case trap => exact ⟨_, rfl, by rw [dispatch_of_wf hi]⟩
  case out | halt => exact ⟨_, rfl, rfl⟩
  case puts | putsp => exact ⟨_, rfl, scan_field State.regs poll_regs emit_regs (fun _ _ => rfl) ..⟩
  case getc => exact absurd rfl hgetc
  case inp => exact absurd rfl hinp

/-- Of the trap routines only those of PUTS and PUTSP touch memory, where they poll. -/
theorem exec_mem_of_trap {i : Instr} (hi : i.wf = true) (ht : isTrap i = true)
    (hputs : i ≠ .puts) (hputsp : i ≠ .putsp) (s : State) :
    ∃ t, exec i s = .next t ∧ t.mem = s.mem := by
  cases i <;> cases ht
  case trap => exact ⟨_, rfl, by rw [dispatch_of_wf hi]⟩
  case out | halt => exact ⟨_, rfl, rfl⟩
  case getc => exact ⟨_, rfl, getcRead_mem s⟩
  case inp => exact ⟨_, rfl, inRoutine_mem s⟩
  case puts => exact absurd rfl hputs
  case putsp => exact absurd rfl hputsp

theorem regsSameBut_getcRead (s : State) : RegsSameBut 0 s s.getcRead := by
  intro r hr
  rcases getcRead_cases s with ⟨-, h⟩ | ⟨b, rest, -, h⟩ <;> rw [h]
  · rfl
  · exact reg_setReg_other s (zext16 b) hr

theorem regsSameBut_inRead (s : State) : RegsSameBut 0 s s.inRead := by
  intro r hr
  rcases inRead_cases s with ⟨-, h⟩ | ⟨b, rest, -, h⟩ <;> rw [h]
  · rfl
  · exact reg_setReg_other s (zext16 b) hr

/-- A scan writes no cell but KBSR and KBDR. -/
theorem scan_cell_other (bytes : Word → List Byte) (more : Word → Activity) (n : Nat) (a : Word)
    (s : State) {c : Word} (hkbsr : c ≠ kbsrAddr) (hkbdr : c ≠ kbdrAddr) :
    (State.scan bytes more n a s).cell c = s.cell c :=
  scan_field (fun s => s.cell c) (fun s => poll_cell_other s hkbsr hkbdr) (fun _ _ => rfl)
    (fun _ _ => rfl) bytes more n a s

/-! ### Blocking (60_exceptions.md R219) -/

theorem blocked_getcRead (s : State) : Blocked s.getcRead ↔ s.input = [] := by
  rcases getcRead_cases s with ⟨hi, h⟩ | ⟨b, rest, hi, h⟩ <;> rw [h, hi]
  · exact iff_of_true (.inl rfl) rfl
  · exact iff_of_false (by simp [Blocked]) (List.cons_ne_nil _ _)

theorem blocked_inRead (s : State) : Blocked s.inRead ↔ s.input = [] := by
  rcases inRead_cases s with ⟨hi, h⟩ | ⟨b, rest, hi, h⟩ <;> rw [h, hi]
  · exact iff_of_true (.inr rfl) rfl
  · exact iff_of_false (by simp [Blocked]) (List.cons_ne_nil _ _)

/-- GETC and IN block exactly where no byte is available. -/
theorem exec_blocked_of_read {i : Instr} (h : i = .getc ∨ i = .inp) (s : State) :
    ∃ t, exec i s = .next t ∧ (Blocked t ↔ s.input = []) := by
  rcases h with rfl | rfl
  · exact ⟨_, rfl, blocked_getcRead s⟩
  · exact ⟨_, rfl, blocked_inRead (s.emit Config.inPrompt)⟩

/-- No scan is blocked, over or unfinished. -/
theorem not_blocked_putsFrom (s : State) (a : Word) : ¬ Blocked (s.putsFrom a) := by
  rcases scan_activity putsBytes .putsScan scanBatch a s with h | ⟨b, h⟩ <;>
    simp [Blocked, State.putsFrom, h]

theorem not_blocked_putspFrom (s : State) (a : Word) : ¬ Blocked (s.putspFrom a) := by
  rcases scan_activity putspBytes .putspScan scanBatch a s with h | ⟨b, h⟩ <;>
    simp [Blocked, State.putspFrom, h]

theorem blocked_of_activity_eq {s t : State} (h : t.activity = s.activity) (ht : Blocked t) :
    Blocked s := by
  rw [Blocked, ← h]
  exact ht

/-- No other handler of a well-formed instruction blocks. -/
theorem exec_blocked_of_other {i : Instr} (hi : i.wf = true) (hgetc : i ≠ .getc)
    (hinp : i ≠ .inp) (s : State) : ∃ t, exec i s = .next t ∧ (Blocked t → Blocked s) := by
  match hd : destOf i with
  | some d =>
    obtain ⟨u, v, hx, hu⟩ := exec_of_destOf hd s
    exact ⟨_, hx, blocked_of_activity_eq hu.activity⟩
  | none =>
    cases i <;> cases hd
    case jmp | ret | jsr | jsrr | st | str | out | halt | rti | res => exact ⟨_, rfl, id⟩
    case br => exact ⟨_, rfl, by split <;> exact id⟩
    case sti => exact ⟨_, rfl, blocked_of_activity_eq (memRead_activity s _)⟩
    case trap => exact ⟨_, rfl, by rw [dispatch_of_wf hi]; exact id⟩
    case puts => exact ⟨_, rfl, fun h => absurd h (not_blocked_putsFrom s _)⟩
    case putsp => exact ⟨_, rfl, fun h => absurd h (not_blocked_putspFrom s _)⟩
    case getc => exact absurd rfl hgetc
    case inp => exact absurd rfl hinp

/-- Settles O36: the registers by `exec_regs_of_trap`, memory by `exec_mem_of_trap`, blocking by
`exec_blocked_of_other`, and the routines that these leave out by their own lemmas. -/
theorem trapRoutinesTouchOnlyWhatTheySay : Obligations.TrapRoutinesTouchOnlyWhatTheySay := by
  intro i s hi ht
  obtain ⟨t, hx⟩ := everyInstructionAnswersANextState i s
  refine ⟨t, hx, ?_, fun hgetc hinp => ?_, fun a hkbsr hkbdr => ?_, fun hputs hputsp a => ?_,
    fun hgetc hinp => ?_, fun hread => ?_⟩
  · by_cases hread : i = .getc ∨ i = .inp
    · rcases hread with rfl | rfl <;> cases hx
      · exact regsSameBut_getcRead s
      · exact regsSameBut_inRead (s.emit Config.inPrompt)
    · obtain ⟨hgetc, hinp⟩ := not_or.1 hread
      obtain ⟨u, hu, hregs⟩ := exec_regs_of_trap hi ht hgetc hinp s
      cases hu.symm.trans hx
      exact fun r _ => reg_congr hregs r
  · obtain ⟨u, hu, hregs⟩ := exec_regs_of_trap hi ht hgetc hinp s
    cases hu.symm.trans hx
    exact reg_congr hregs 0
  · by_cases hscan : i = .puts ∨ i = .putsp
    · rcases hscan with rfl | rfl <;> cases hx <;> exact scan_cell_other _ _ _ _ s hkbsr hkbdr
    · obtain ⟨hputs, hputsp⟩ := not_or.1 hscan
      obtain ⟨u, hu, hmem⟩ := exec_mem_of_trap hi ht hputs hputsp s
      cases hu.symm.trans hx
      exact cell_congr hmem a
  · obtain ⟨u, hu, hmem⟩ := exec_mem_of_trap hi ht hputs hputsp s
    cases hu.symm.trans hx
    exact cell_congr hmem a
  · obtain ⟨u, hu, hb⟩ := exec_blocked_of_other hi hgetc hinp s
    cases hu.symm.trans hx
    exact hb
  · obtain ⟨u, hu, hb⟩ := exec_blocked_of_read hread s
    cases hu.symm.trans hx
    exact hb

/-! ### Blocked reads (60_exceptions.md R215, R219; log 6, 9) -/

/-- A blocked read takes a pending cancellation only while no byte is there, and waits on where there is
neither. -/
theorem read_unless_cancelled {s read : State} (hwait : s.input = [] → read = s) :
    (s.input = [] ∧ s.cancelRequested = true ∧
      (if s.cancelRequested && !s.pollReady then s.takeCancel else read) = s.takeCancel) ∨
    (s.input = [] ∧ s.cancelRequested = false ∧
      (if s.cancelRequested && !s.pollReady then s.takeCancel else read) = s) ∨
    ∃ b rest, s.input = b :: rest ∧
      (if s.cancelRequested && !s.pollReady then s.takeCancel else read) = read := by
  cases hi : s.input with
  | nil =>
    cases hc : s.cancelRequested with
    | true => exact .inl ⟨rfl, rfl, by simp [State.pollReady, hi]⟩
    | false => exact .inr (.inl ⟨rfl, rfl, by simp [hwait hi]⟩)
  | cons b rest => exact .inr (.inr ⟨b, rest, rfl, by simp [State.pollReady, hi]⟩)

/-- Everything that a step can resume a blocked read to; IN echoes the byte it reads. -/
theorem resume_of_blocked {s : State} (h : Blocked s) :
    (s.input = [] ∧ s.cancelRequested = true ∧ s.resume = s.takeCancel) ∨
    (s.input = [] ∧ s.cancelRequested = false ∧ s.resume = s) ∨
    ∃ b rest, s.input = b :: rest ∧ s.resume = { s with
      regs := s.regs.set 0 (zext16 b), input := rest, consumed := s.consumed ++ [b]
      output := s.output ++ (if s.activity = .inRead then [b] else []), activity := .boundary } := by
  rcases h with ha | ha
  · rw [resume_getcRead ha]
    have hwait : s.input = [] → s.getcRead = s := fun hi => by rw [getcRead_nil hi, ← ha]
    refine (read_unless_cancelled hwait).imp_right (.imp_right fun ⟨b, rest, hi, h⟩ => ?_)
    exact ⟨b, rest, hi, by rw [h, getcRead_cons hi, ha]; simp⟩
  · rw [resume_inRead ha]
    have hwait : s.input = [] → s.inRead = s := fun hi => by rw [inRead_nil hi, ← ha]
    refine (read_unless_cancelled hwait).imp_right (.imp_right fun ⟨b, rest, hi, h⟩ => ?_)
    exact ⟨b, rest, hi, by rw [h, inRead_cons hi, if_pos ha]⟩

/-- A step from a blocked read resumes it after the host's turn. -/
theorem step_of_blocked {s : State} (hs : MayStep s) (h : Blocked s) :
    step s = .next s.hostActs.resume := by
  refine step_of_routine hs fun hb => ?_
  rcases h with h | h <;> exact nomatch hb.symm.trans h

/-- Settles O38: the blocked step by `resume_of_blocked`, and the handlers by `exec_blocked_of_read` and
`exec_blocked_of_other`. -/
theorem onlyInputOrCancellationLiftsABlockedRead :
    Obligations.OnlyInputOrCancellationLiftsABlockedRead := by
  refine ⟨fun s hs hb => ⟨_, step_of_blocked hs hb, ?_⟩, fun i s h => exec_blocked_of_read h s,
    fun i s hi hgetc hinp => exec_blocked_of_other hi hgetc hinp s⟩
  have hhost : Blocked s.hostActs := hb
  rcases resume_of_blocked hhost with ⟨hi, hc, h⟩ | ⟨hi, hc, h⟩ | ⟨b, rest, hi, h⟩ <;> rw [h]
  · have hnot : ¬ Blocked s.hostActs.takeCancel := by simp [Blocked]
    exact ⟨iff_of_false hnot fun ⟨_, hc'⟩ => Bool.false_ne_true (hc'.symm.trans hc),
      fun hb' => absurd hb' hnot⟩
  · exact ⟨iff_of_true hhost ⟨hi, hc⟩, fun _ => rfl⟩
  · refine ⟨iff_of_false (by simp [Blocked]) fun ⟨hi', _⟩ => ?_, fun hb' => ?_⟩
    · exact nomatch hi'.symm.trans hi
    · simp [Blocked] at hb'

/-- Settles O39: the handlers where no byte is there, and `resume_of_blocked` for a step from the blocked
state they leave. -/
theorem blockedReadsResumeOrAreAbandoned : Obligations.BlockedReadsResumeOrAreAbandoned := by
  refine ⟨fun s hi => ⟨congrArg Host.Outcome.next (getcRead_nil hi),
    congrArg Host.Outcome.next (inRead_nil (s := s.emit Config.inPrompt) hi)⟩,
    fun s hs hb => ⟨fun hi hc => ?_, fun b rest hi => ?_⟩⟩
  · rw [step_of_blocked hs hb]
    rcases resume_of_blocked (s := s.hostActs) hb with ⟨-, -, h⟩ | ⟨-, hc', -⟩ | ⟨b, rest, hi', -⟩
    · rw [h]
      rfl
    · exact absurd (hc'.symm.trans hc) Bool.false_ne_true
    · exact nomatch hi.symm.trans hi'
  · rcases resume_of_blocked (s := s.hostActs) hb with ⟨hi', -⟩ | ⟨hi', -⟩ | ⟨b', rest', hi', h⟩
    · exact nomatch hi'.symm.trans hi
    · exact nomatch hi'.symm.trans hi
    · obtain ⟨rfl, rfl⟩ : b' = b ∧ rest' = rest := by simpa using hi'.symm.trans hi
      refine ⟨_, (step_of_blocked hs hb).trans (congrArg Host.Outcome.next h), ?_, fun r hr => ?_,
        rfl, rfl, rfl, rfl, rfl, rfl, fun _ => rfl, hs⟩
      · exact toNat_reg_setReg_zext16 s 0 b'
      · exact reg_setReg_other s (zext16 b') hr

end Sys2Proof.Machine
end

section
/-!
The fetch from KBSR, the reset sequence and the image (20_memory.md R59, 70_reset_and_hazards.md R240 to
R243).
-/

namespace Sys2Proof.Machine

open Sys2Proof.Claims

/-! ### The fetch from KBSR (20_memory.md R59; D7) -/

/-- A fetch from KBSR polls and reads the poll's answer. -/
theorem fetch_kbsr {s : State} (h : s.pc = kbsrAddr) :
    s.fetch = (s.poll.cell kbsrAddr, s.poll.setPc (kbsrAddr + 1)) := by
  rw [State.fetch, h, memRead_kbsr]

/-- BR with an empty mask is never taken (42_control.md R140). -/
theorem exec_br_zero (off : BitVec 9) (s : State) : exec (.br 0 off) s = .next s := by
  have hnot : s.branchTaken 0 = false := by simp [State.branchTaken]
  simp only [exec, execBr, hnot, Bool.false_eq_true, if_false]

/-- Settles O50: the fetched word is the poll's answer (`fetch_kbsr`), and it is the never-taken BR or
RTI. -/
theorem fetchFromKbsrRunsThePollsAnswer : Obligations.FetchFromKbsrRunsThePollsAnswer := by
  intro s hwf hs hb hpc hc
  have hfetch := fetch_kbsr (s := s.hostActs) hpc
  have hregs : RegsSame s (s.hostActs.poll.setPc (kbsrAddr + 1)) :=
    reg_congr (poll_regs s.hostActs)
  have hanswer := poll_kbsr (s := s.hostActs) hwf
  rw [step_of_boundary hs hb hc, hfetch]
  refine ⟨fun hi => ?_, fun b rest hi => ?_⟩
  · rw [if_pos hi] at hanswer
    have hbr : decode 0 = .br 0 0 := by decide
    rw [hanswer, hbr, exec_br_zero]
    refine ⟨_, rfl, rfl, ⟨(poll_outcome _).trans hs.1, (poll_engine _).trans hs.2⟩, hregs,
      poll_cond _, fun a ha => ?_⟩
    rw [cell_setPc, poll_nil hi]
    exact cell_setCell_other s.hostActs 0 ha
  · rw [hi, if_neg (List.cons_ne_nil b rest)] at hanswer
    have hrti : decode kbsrReady = .rti 0 := by decide
    have hkbdr : (s.hostActs.poll.cell kbdrAddr).toNat = b.toNat := by
      rw [poll_kbdr (s := s.hostActs) hwf hi, toNat_zext16]
    rw [hanswer, hrti]
    exact ⟨_, rfl, rfl, hkbdr, poll_input_cons hi, hregs⟩

/-! ### The reset sequence (70_reset_and_hazards.md R240) -/

theorem cell_reset (a : Word) : State.reset.cell a = 0 := rfl

theorem reg_reset (r : Reg) : State.reset.reg r = 0 := by
  revert r
  decide

/-- A step with the PC at PC_START runs the word in that cell, which is not KBSR. -/
theorem step_from_pcStart {s : State} (hs : MayStep s) (hb : s.activity = .boundary)
    (hpc : s.pc = pcStart) (hc : s.hostActs.cancelRequested = false) :
    step s = exec (decode (s.cell pcStart)) (s.hostActs.setPc (pcStart + 1)) := by
  have hne : s.pc ≠ kbsrAddr := by rw [hpc]; decide
  rw [(stepRunsTheDecodedInstruction s _ hs hb hc).2 hne rfl, hpc]
  rfl

/-- Settles O53: a boot is the reset state with cells loaded, and its first step is the fetch from the
reset PC. -/
theorem resetSequenceLeavesTheStartState : Obligations.ResetSequenceLeavesTheStartState := by
  refine ⟨cell_reset, fun hi lo rest => ⟨_, boot_of_origin hi lo rest, reg_reset, rfl, rfl, rfl, rfl,
    rfl, rfl, fun a ha => ?_, fun bytes schedule hcancel => ?_⟩, fun s h => nomatch h⟩
  · rw [← toNat_bigEndian] at ha
    exact read_loadWords_below _ State.reset.mem ha
  · exact step_from_pcStart ⟨rfl, rfl⟩ rfl rfl hcancel

/-! ### The image (70_reset_and_hazards.md R242, R243) -/

/-- A load leaves the cells beyond its last word alone. -/
theorem read_loadWords_beyond (ws : List Word) {a b : Nat} (m : Memory) (h : a + ws.length ≤ b) :
    Memory.read (loadWords a ws m) b = Memory.read m b := by
  induction ws generalizing a m with
  | nil => rfl
  | cons w ws ih =>
    rw [List.length_cons] at h
    unfold loadWords
    split
    · rw [ih _ (by omega), read_write_other _ _ (by omega)]
    · rfl

/-- Settles O54: a covered cell by `cell_of_boot`, the others by `read_loadWords_below` and
`read_loadWords_beyond`. -/
theorem imageWordsAreLoadedFromTheOrigin : Obligations.ImageWordsAreLoadedFromTheOrigin := by
  intro hi lo rest s hboot
  have hs := boot_of_origin hi lo rest
  cases hs.symm.trans hboot
  refine ⟨loadWords_wf _ _ resetStateIsSound.memWf,
    fun a => ⟨fun k x y ha hx hy => ?_, fun ha => ?_⟩⟩
  · rw [cell_of_boot hs ha hx hy]
    exact toNat_bigEndian x y
  · rw [← toNat_bigEndian, ← wordsOfBytes_length] at ha
    rcases ha with hbelow | hbeyond
    · exact read_loadWords_below _ State.reset.mem hbelow
    · exact read_loadWords_beyond _ State.reset.mem hbeyond

/-- Settles O55: by the first two bytes, without which there is no origin word. -/
theorem loadFailsOnlyWithoutAnOrigin : Obligations.LoadFailsOnlyWithoutAnOrigin := by
  refine ⟨rfl, fun bytes => ?_⟩
  match bytes with
  | [] => exact ⟨fun _ => rfl, fun h => absurd h (by simp), fun h => absurd h (by simp)⟩
  | [_] => exact ⟨fun _ => rfl, fun h => absurd h (by simp), fun h => absurd h (by simp)⟩
  | hi :: lo :: rest =>
    refine ⟨fun h => absurd h (by simp), fun _ => ⟨_, boot_of_origin hi lo rest⟩, fun h => ?_⟩
    obtain rfl : rest = [] := by simpa using h
    rfl

end Sys2Proof.Machine
end
